-- ==== Sys2Proof/Word.lean ====
section
/-! DEFINITION. The two word types of PNGDES (spec/00_scope.md R6): the byte and the 32-bit word, both unsigned. -/

namespace Sys2Proof

/-- A byte: 8 bits, bit 0 least significant (R6). -/
abbrev Byte := BitVec 8

/-- A 32-bit register value, unsigned, arithmetic modulo 2^32 (R6, R124). -/
abbrev Word := BitVec 32

end Sys2Proof
end

