-- ==== Sys2Proof/Config.lean ====
section
/-! DEFINITION. What one instance of PNGDES fixes (spec/00_scope.md R5), and the values the spec leaves free. -/

namespace Sys2Proof

/-- The instance parameters: `SIG[0..7]`, eight bytes of any value (R5, R71, 92_eei_decisions.md D7). -/
structure Config where
  sig : Vector Byte 8
  deriving DecidableEq, Repr

/-- The default of the parameter: `89 50 4E 47 0D 0A 1A 0A` (R5). DESIGN CHOICE (log 1): the value State.reset carries;
no rule depends on it. -/
def Config.standard : Config := ⟨#v[0x89, 0x50, 0x4E, 0x47, 0x0D, 0x0A, 0x1A, 0x0A]⟩

/-- FREE VALUE (log 3): the 71 lines `ev` in a cycle with `ev_valid = 0`, which R89 leaves unspecified. -/
opaque Config.freeEvWord : Nat → BitVec 71

/-- FREE VALUE (log 7): the comparator's line before the first `CRC.CHK`; R106 gives it a value in that step only. -/
opaque Config.freeChk : Bool

/-- FREE VALUE (log 11): whether bytes that are not all ASCII are valid UTF-8, which the spec does not define
(44_reference_model.md R209, 91_not_in_source.md N16). -/
opaque Config.freeUtf8 : List Byte → Bool

end Sys2Proof
end

