-- ==== Sys2Proof/Syntax.lean ====
section
/-! DEFINITION. The syntax of PNGDES: its enumerations, the type code, the event, and ONE constructor per row of
spec/opcode_table.json (spec/00_scope.md R2, spec/30_encoding.md R92). -/

namespace Sys2Proof

/-- Which field of the wire layout the next byte belongs to, or `fail` (10_state.md R21). Six constructors, so that the
codes 6 and 7 cannot be written down. -/
inductive Phase where
  | sig | len | type | data | crc | fail
  deriving DecidableEq, Repr

/-- The status of a run, and the failure latched in `err` (60_exceptions.md R230). -/
inductive Status where
  | ok | badSignature | truncated | checksumMismatch
  deriving DecidableEq, Repr

/-- The four kinds of event (30_encoding.md R84). -/
inductive EvKind where
  | hdr | pay | eoc | done
  deriving DecidableEq, Repr

/-- An event, field by field: `K(ev_a, ev_b, ev_f)` (30_encoding.md R84). -/
structure Event where
  kind : EvKind
  a : Word
  b : Word
  f : BitVec 5
  deriving DecidableEq, Repr

/-- A type code: any four bytes, `T[0]` first on the wire (42_typecode.md R130). -/
structure TypeCode where
  t0 : Byte
  t1 : Byte
  t2 : Byte
  t3 : Byte
  deriving DecidableEq, Repr

/-- The register operand of `BE.SHIFT`: `len` or `rx` (41_be32.md R121). -/
inductive BeReg where
  | len | rx
  deriving DecidableEq, Repr

/-- The fifteen rows of spec/opcode_table.json. -/
inductive Instr where
  /-- `BYTE d`, the next byte of the buffer (R81). -/
  | byte (d : Byte)
  /-- `END`, the buffer has no more bytes; all 256 words of it are this one command (R82). -/
  | endBuf
  /-- `SIGNATURE`, the wire format `SIG8`: the eight bytes `SIG[0..7]` (R71). -/
  | signature
  /-- `CHUNK`, the wire format of one record: length, type code, payload, checksum (R72). -/
  | chunk (length : Word) (type : TypeCode) (payload : List Byte) (checksum : Word)
  /-- `HDR(ev_a, ev_b, ev_f)` on the event port (R85). -/
  | hdr (a b : Word) (f : BitVec 5)
  /-- `PAY(ev_a, ev_b, ev_f)` on the event port (R86). -/
  | pay (a b : Word) (f : BitVec 5)
  /-- `EOC(ev_a, ev_b, ev_f)` on the event port (R87). -/
  | eoc (a b : Word) (f : BitVec 5)
  /-- `DONE(ev_a, ev_b, ev_f)` on the event port (R88). -/
  | done (a b : Word) (f : BitVec 5)
  /-- `CRC.INIT` in the step of `BYTE d` (R104). -/
  | crcInit (d : Byte)
  /-- `CRC.UPD d` (R105). -/
  | crcUpd (d : Byte)
  /-- `CRC.CHK` in the step of `BYTE d` (R106). -/
  | crcChk (d : Byte)
  /-- `BE.SHIFT r, d` (R121). -/
  | beShift (r : BeReg) (d : Byte)
  /-- `TC.SHIFT d` (R136). -/
  | tcShift (d : Byte)
  /-- `TC.FLAGS` in the step of `BYTE d` (R137). -/
  | tcFlags (d : Byte)
  /-- `TC.VALID` in the step of `BYTE d` (R137). -/
  | tcValid (d : Byte)
  deriving DecidableEq, Repr

/-- The four groups of the opcode table (R92). -/
inductive Format where
  | cmd | wire | evt | unit
  deriving DecidableEq, Repr

/-- The `format` member of an instruction's row. -/
def Instr.format : Instr → Format
  | .byte _ | .endBuf => .cmd
  | .signature | .chunk _ _ _ _ => .wire
  | .hdr _ _ _ | .pay _ _ _ | .eoc _ _ _ | .done _ _ _ => .evt
  | .crcInit _ | .crcUpd _ | .crcChk _ | .beShift _ _ | .tcShift _ | .tcFlags _ | .tcValid _ => .unit

end Sys2Proof
end

