-- ==== Sys2Proof/Machine/Operands.lean ====
section
/-! DEFINITION. The operand forms of PNGDES: the big-endian integer of four bytes, the byte shift that assembles one, the
four bytes of a type code, a byte of the signature (spec/41_be32.md R120, R121; spec/42_typecode.md R136; R71). -/

namespace Sys2Proof

/-- `be32(b0, b1, b2, b3) = {b0, b1, b2, b3}`, `b0` the byte at the lowest offset (R120, R52). -/
def be32 (b0 b1 b2 b3 : Byte) : Word := b0 ++ b1 ++ b2 ++ b3

/-- `be32_bytes(v) = [v[31:24], v[23:16], v[15:8], v[7:0]]`, the inverse of `be32` (R120). -/
def be32Bytes (v : Word) : List Byte :=
  [v.extractLsb' 24 8, v.extractLsb' 16 8, v.extractLsb' 8 8, v.extractLsb' 0 8]

/-- `{r[23:0], d}`: the byte enters at the bottom, the top byte falls out (R121, R136). -/
def shiftIn (r : Word) (d : Byte) : Word := r.extractLsb' 0 24 ++ d

/-- The four bytes of a type code in wire order (R130). -/
def TypeCode.bytes (t : TypeCode) : List Byte := [t.t0, t.t1, t.t2, t.t3]

/-- `{T[0], T[1], T[2], T[3]}`, the packing of the register `typ` and of `HDR.ev_b` (R24, D17). -/
def TypeCode.pack (t : TypeCode) : Word := be32 t.t0 t.t1 t.t2 t.t3

/-- The four bytes of a packed type code: `T[0] = v[31:24]` down to `T[3] = v[7:0]` (R137). -/
def TypeCode.ofWord (v : Word) : TypeCode :=
  ⟨v.extractLsb' 24 8, v.extractLsb' 16 8, v.extractLsb' 8 8, v.extractLsb' 0 8⟩

/-- `SIG[n]` (R71). It is read for `n` up to 7 only: a state with a larger `cnt` in phase `SIG` is not legal (R34). -/
def Config.sigByte (cfg : Config) (n : Word) : Byte := cfg.sig.toList.getD n.toNat 0

end Sys2Proof
end

