-- ==== Sys2Proof/Machine/Crc.lean ====
section
/-! DEFINITION. The checksum function (spec/40_crc32.md R100 to R103): CRC-32/ISO-HDLC in its reflected form. -/

namespace Sys2Proof

/-- The reflected generator polynomial (R100). -/
def crcPoly : Word := 0xEDB88320

/-- The initial remainder, which is the final exclusive-or too (R100). -/
def crcOnes : Word := 0xFFFFFFFF

/-- One single-bit step: `c(k)` from `c(k-1)` (R101). -/
def crcBit (c : Word) : Word := if c.getLsbD 0 then (c >>> 1) ^^^ crcPoly else c >>> 1

/-- `n` single-bit steps. -/
def crcBits : Nat → Word → Word
  | 0, c => c
  | n + 1, c => crcBits n (crcBit c)

/-- `crc_step(c, b)`: the byte into the low 8 bits, then eight single-bit steps (R101). -/
def crcStep (c : Word) (b : Byte) : Word := crcBits 8 (c ^^^ b.setWidth 32)

/-- `TAB[i] = crc_step(zext_32(i), 0)` (R101). -/
def crcTab (i : Byte) : Word := crcStep (i.setWidth 32) 0

/-- The table form of `crc_step`, which R101 says is equivalent. -/
def crcStepTab (c : Word) (b : Byte) : Word :=
  crcTab ((c ^^^ b.setWidth 32).extractLsb' 0 8) ^^^ (c >>> 8)

/-- `crc_raw` folds `crc_step` over a sequence, first byte first (R102). -/
def crcRaw : Word → List Byte → Word
  | c, [] => c
  | c, b :: rest => crcRaw (crcStep c b) rest

/-- `crc32(s) = crc_raw(0xFFFFFFFF, s) ^ 0xFFFFFFFF` (R103). -/
def crc32 (s : List Byte) : Word := crcRaw crcOnes s ^^^ crcOnes

end Sys2Proof
end

