-- ==== Sys2Proof/Machine/Flags.lean ====
section
/-! DEFINITION. The ASCII validator and the flag extractor (spec/42_typecode.md R131 to R137). None of the results is
stored: they leave the block as `ev_f` of the `HDR` event (spec/10_state.md R28). -/

namespace Sys2Proof

/-- `is_upper(b) = (0x41 <= b and b <= 0x5A)` (R131). -/
def isUpper (b : Byte) : Bool := decide (0x41 ≤ b.toNat) && decide (b.toNat ≤ 0x5A)

/-- `is_lower(b) = (0x61 <= b and b <= 0x7A)` (R131). -/
def isLower (b : Byte) : Bool := decide (0x61 ≤ b.toNat) && decide (b.toNat ≤ 0x7A)

/-- `is_alpha(b) = is_upper(b) or is_lower(b)` (R131). -/
def isAlpha (b : Byte) : Bool := isUpper b || isLower b

/-- `flags4(T)[i] = is_upper(T[i])` (R132); bit 3 is the raw bit of R133, whatever its English name (D11). -/
def flags4 (t : TypeCode) : BitVec 4 :=
  BitVec.ofBool (isUpper t.t3) ++ BitVec.ofBool (isUpper t.t2) ++ BitVec.ofBool (isUpper t.t1) ++
    BitVec.ofBool (isUpper t.t0)

/-- The document's four queries, each one bit of `flags4` (R133). The English name of the last is a label of the document
whose polarity is in doubt (C3, D11): a claim goes through the raw bit. -/
def isCritical (t : TypeCode) : Bool := (flags4 t).getLsbD 0

/-- `is_public` (R133). -/
def isPublic (t : TypeCode) : Bool := (flags4 t).getLsbD 1

/-- `is_reserved_bit_valid` (R133). -/
def isReservedBitValid (t : TypeCode) : Bool := (flags4 t).getLsbD 2

/-- `is_safe_to_copy`, by the literal text: byte 3 uppercase (R133, D11). -/
def isSafeToCopy (t : TypeCode) : Bool := (flags4 t).getLsbD 3

/-- `tc_valid(T)`: all four bytes alphabetic and byte 2 uppercase (R134). -/
def tcValid (t : TypeCode) : Bool :=
  isAlpha t.t0 && isAlpha t.t1 && isAlpha t.t2 && isAlpha t.t3 && isUpper t.t2

/-- `TC.FLAGS` writes `ev_f[3:0]` (R137). -/
def setFlags (f : BitVec 5) (x : BitVec 4) : BitVec 5 := f.extractLsb' 4 1 ++ x

/-- `TC.VALID` writes `ev_f[4]` (R137). -/
def setValid (f : BitVec 5) (v : Bool) : BitVec 5 := BitVec.ofBool v ++ f.extractLsb' 0 4

/-- `{tc_valid(T), flags4(T)}`, the field `ev_f` of `HDR` (R85, R155). -/
def hdrFlags (t : TypeCode) : BitVec 5 := BitVec.ofBool (tcValid t) ++ flags4 t

end Sys2Proof
end

