-- ==== Sys2Proof/WellFormed.lean ====
section
/-! DEFINITION. Which instructions are well formed. Commands and unit operations always are (spec/30_encoding.md R83);
a record's payload has the length its `Length` field declares (R72); an event's unused fields are zero and its used ones
have the values the block can give them (R84 to R88). -/

namespace Sys2Proof

/-- `HDR`: `ev_f` is the five flags of the type code in `ev_b` (R85). `PAY`: `ev_b` is a byte, `ev_f = 0` (R86). `EOC`:
`ev_b = 0`, `ev_f = 0` (R87). `DONE`: `ev_a` is a 2-bit status, `ev_b = 0`, `ev_f = 0` (R88). -/
def Event.wellFormed (e : Event) : Bool :=
  match e.kind with
  | .hdr => decide (e.f = hdrFlags (TypeCode.ofWord e.b))
  | .pay => decide (e.b.toNat < 256) && decide (e.f = 0)
  | .eoc => decide (e.b = 0) && decide (e.f = 0)
  | .done => decide (e.a.toNat < 4) && decide (e.b = 0) && decide (e.f = 0)

/-- The well-formed instructions: every operand of an instruction that is not listed may have any value. -/
def Instr.wellFormed : Instr → Bool
  | .chunk length _ payload _ => decide (payload.length = length.toNat)
  | .hdr a b f => Event.wellFormed ⟨.hdr, a, b, f⟩
  | .pay a b f => Event.wellFormed ⟨.pay, a, b, f⟩
  | .eoc a b f => Event.wellFormed ⟨.eoc, a, b, f⟩
  | .done a b f => Event.wellFormed ⟨.done, a, b, f⟩
  | .byte _ | .endBuf | .signature => true
  | .crcInit _ | .crcUpd _ | .crcChk _ | .beShift _ _ | .tcShift _ | .tcFlags _ | .tcValid _ => true

end Sys2Proof
end

