-- ==== Sys2Proof/Decode.lean ====
section
/-! DEFINITION. The encodings of PNGDES and their decoder and encoder (spec/30_encoding.md): the 9-bit command word, the
wire records as byte strings, the 71-bit event word; the codes of the enumerations; and the unit operations a command
invokes, which "a decoder tells apart by state, not by bits" (R92). -/

namespace Sys2Proof

/-! ### Codes -/

/-- The code of a phase, as `st_phase` shows it (10_state.md R21, R30). -/
def Phase.code : Phase → BitVec 3
  | .sig => 0 | .len => 1 | .type => 2 | .data => 3 | .crc => 4 | .fail => 5

/-- The code of a status (60_exceptions.md R230). -/
def Status.code : Status → BitVec 2
  | .ok => 0 | .badSignature => 1 | .truncated => 2 | .checksumMismatch => 3

/-- The status of a code (R230). -/
def Status.ofCode (c : BitVec 2) : Status :=
  if c = 0 then .ok else if c = 1 then .badSignature else if c = 2 then .truncated else .checksumMismatch

/-- The code of an event kind, `ev[70:69]` (R84). -/
def EvKind.code : EvKind → BitVec 2
  | .hdr => 0 | .pay => 1 | .eoc => 2 | .done => 3

/-- The event kind of a code; all four are defined (R89). -/
def EvKind.ofCode (c : BitVec 2) : EvKind :=
  if c = 0 then .hdr else if c = 1 then .pay else if c = 2 then .eoc else .done

/-! ### The event word -/

/-- `ev[70:0] = {ev_kind, ev_a, ev_b, ev_f}` (R84). -/
def Event.word (e : Event) : BitVec 71 := e.kind.code ++ e.a ++ e.b ++ e.f

/-- The fields of an event word (R84). -/
def Event.ofWord (w : BitVec 71) : Event :=
  ⟨EvKind.ofCode (w.extractLsb' 69 2), w.extractLsb' 37 32, w.extractLsb' 5 32, w.extractLsb' 0 5⟩

/-- The EVT instruction of an event. -/
def Event.toInstr (e : Event) : Instr :=
  match e.kind with
  | .hdr => .hdr e.a e.b e.f
  | .pay => .pay e.a e.b e.f
  | .eoc => .eoc e.a e.b e.f
  | .done => .done e.a e.b e.f

/-! ### Decoding -/

/-- What is decoded: a command word, the bytes of a wire record, or an event word. -/
inductive Words where
  | cmd (w : BitVec 9)
  | wire (bytes : List Byte)
  | evt (w : BitVec 71)
  deriving DecidableEq, Repr

/-- Why bytes are not one wire record. No command word and no event word is ever rejected (R83, R89). -/
inductive DecodeError where
  /-- at offset 0 the bytes are not the eight bytes of `SIG` -/
  | notSignature
  /-- at a record boundary there are fewer than `12 + L` bytes -/
  | shortRecord
  /-- at a record boundary there are more than `12 + L` bytes -/
  | longRecord
  /-- no record begins here: the next byte is in the middle of a field, or is drained -/
  | midField
  deriving DecidableEq, Repr

/-- The command word: `cmd[8]` is the operation, `cmd[7:0]` the byte, ignored for `END` (R80 to R82). Total: there is no
illegal command (R83). -/
def decodeCmd (w : BitVec 9) : Instr :=
  if w.getLsbD 8 then .endBuf else .byte (w.extractLsb' 0 8)

/-- The last four bytes of a record. -/
def decodeTail (length : Word) (type : TypeCode) (payload : List Byte) : List Byte → Except DecodeError Instr
  | [c0, c1, c2, c3] => .ok (.chunk length type payload (be32 c0 c1 c2 c3))
  | _ :: _ :: _ :: _ :: _ :: _ => .error .longRecord
  | _ => .error .shortRecord

/-- Format `CHUNK`: length, type code, `L` payload bytes, checksum, and nothing after (R72, R74). -/
def decodeChunk : List Byte → Except DecodeError Instr
  | l0 :: l1 :: l2 :: l3 :: t0 :: t1 :: t2 :: t3 :: rest =>
    let n := (be32 l0 l1 l2 l3).toNat
    if rest.length < n then .error .shortRecord
    else decodeTail (be32 l0 l1 l2 l3) ⟨t0, t1, t2, t3⟩ (rest.take n) (rest.drop n)
  | _ => .error .shortRecord

/-- A wire record is told by where the block stands: at offset 0 it is the signature, at a record boundary it is a
record (R70, R75). -/
def decodeWire (cfg : Config) (p : Phase) (cnt : Word) (bytes : List Byte) : Except DecodeError Instr :=
  match p with
  | .sig =>
    if cnt = 0 then (if bytes = cfg.sig.toList then .ok .signature else .error .notSignature)
    else .error .midField
  | .len => if cnt = 0 then decodeChunk bytes else .error .midField
  | .type | .data | .crc | .fail => .error .midField

/-- The decoder, total on all words, rejecting by name. -/
def decode (cfg : Config) (p : Phase) (cnt : Word) : Words → Except DecodeError Instr
  | .cmd w => .ok (decodeCmd w)
  | .wire bytes => decodeWire cfg p cnt bytes
  | .evt w => .ok (Event.ofWord w).toInstr

/-- The unit operations the command `BYTE d` invokes when the next byte is byte `cnt` of field `p` (the `when` member of
the UNIT rows, R92, R104 to R106, R121, R136, R137). All of them read the state before the step (R7); they are listed so
that an operation which writes a register stands after every operation which reads it. -/
def decodeUnits (p : Phase) (cnt : Word) (d : Byte) : List Instr :=
  match p with
  | .len => [.beShift .len d]
  | .type =>
    (if cnt = 3 then [.tcFlags d, .tcValid d] else []) ++ (if cnt = 0 then [.crcInit d] else []) ++
      [.crcUpd d, .tcShift d]
  | .data => [.crcUpd d]
  | .crc => (if cnt = 3 then [.crcChk d] else []) ++ [.beShift .rx d]
  | .sig | .fail => []

/-! ### Encoding -/

/-- The command word of `BYTE d`: `{0, d}` (R81). -/
def byteWord (d : Byte) : BitVec 9 := 0#1 ++ d

/-- The command word the host should send for `END`: `{1, 00000000}` (R82, D23). -/
def endWord : BitVec 9 := 0x100

/-- The bytes of one record, in wire order (R72). -/
def chunkBytes (length : Word) (type : TypeCode) (payload : List Byte) (checksum : Word) : List Byte :=
  be32Bytes length ++ type.bytes ++ payload ++ be32Bytes checksum

/-- The words of an instruction. A unit operation has no pattern of its own: it carries that of the `BYTE` that invokes
it (R92). -/
def encode (cfg : Config) : Instr → Words
  | .byte d => .cmd (byteWord d)
  | .endBuf => .cmd endWord
  | .signature => .wire cfg.sig.toList
  | .chunk length type payload checksum => .wire (chunkBytes length type payload checksum)
  | .hdr a b f => .evt (Event.word ⟨.hdr, a, b, f⟩)
  | .pay a b f => .evt (Event.word ⟨.pay, a, b, f⟩)
  | .eoc a b f => .evt (Event.word ⟨.eoc, a, b, f⟩)
  | .done a b f => .evt (Event.word ⟨.done, a, b, f⟩)
  | .crcInit d | .crcUpd d | .crcChk d | .beShift _ d | .tcShift d | .tcFlags d | .tcValid d => .cmd (byteWord d)

/-- The place in the buffer where an instruction's words are decoded: the signature at offset 0, all others at a record
boundary (R70). -/
def Instr.place : Instr → Phase × Word
  | .signature => (.sig, 0)
  | _ => (.len, 0)

/-! ### The opcode table's numbering -/

/-- The eight bytes of a 64-bit WIRE row, the byte at offset 0 in bits 63:56 (R71, R92). -/
def tableBytes (w : Nat) : List Byte :=
  be32Bytes (BitVec.ofNat 32 (w / 2 ^ 32)) ++ be32Bytes (BitVec.ofNat 32 w)

/-- The record whose fixed head is `w` and whose payload and checksum bytes are all zero. -/
def tableRecord (w : Nat) : List Byte :=
  tableBytes w ++ List.replicate (w / 2 ^ 32 % 2 ^ 32 + 4) 0

/-- The instruction of a table row's word: a 9-bit command word (16 bits in whole bytes), a 64-bit wire head, or a 71-bit
event word (72 bits in whole bytes). Bits a word does not have are rejected. DESIGN CHOICE (log 10): a 64-bit head equal to
the default `SIG` is read as the signature, any other as a record's head. -/
def decodeTableWord (nbits w : Nat) : Option Instr :=
  if nbits ≤ 16 then (if w < 2 ^ 9 then some (decodeCmd (BitVec.ofNat 9 w)) else none)
  else if nbits = 64 then
    (if 2 ^ 64 ≤ w then none
     else match decode Config.standard .sig 0 (.wire (tableBytes w)) with
      | .ok i => some i
      | .error _ => (decode Config.standard .len 0 (.wire (tableRecord w))).toOption)
  else if nbits = 71 ∨ nbits = 72 then
    (if w < 2 ^ 71 then (decode Config.standard .sig 0 (.evt (BitVec.ofNat 71 w))).toOption else none)
  else none

end Sys2Proof
end

