-- ==== Sys2Proof/Machine/State.lean ====
section
/-! DEFINITION. The state of PNGDES as plain data: the seven registers (spec/10_state.md R20), the event port
(spec/70_reset_and_hazards.md R261), the instance parameter, and the host's side of both ports; the reset state; the
reasons a step can stop, which are none. -/

namespace Sys2Proof.Machine

/-- The architectural state: exactly seven registers, 165 bits (R20). `phase` and `err` are enumerations of the codes
R21 and R230 give them. -/
structure Regs where
  /-- which field the next byte belongs to (R21) -/
  phase : Phase
  /-- bytes of that field already taken (R22) -/
  cnt : Word
  /-- the declared payload length (R23) -/
  len : Word
  /-- the type code (R24) -/
  typ : Word
  /-- the CRC remainder before the final inversion (R25) -/
  crc : Word
  /-- the checksum read from the wire (R26) -/
  rx : Word
  /-- the failure latched in this run, `ok` if none (R27) -/
  err : Status
  deriving DecidableEq, Repr

/-- `S0`: every register zero (R33). -/
def Regs.s0 : Regs := ⟨.sig, 0, 0, 0, 0, 0, .ok⟩

/-- What the host presents (R261). -/
inductive Input where
  /-- one clock cycle: `rst`, `cmd_valid`, `cmd[8:0]` -/
  | cycle (rst cmdValid : Bool) (cmd : BitVec 9)
  /-- the bytes of a whole wire record, handed over one `BYTE` after another (log 6) -/
  | record (bytes : List Byte)
  deriving DecidableEq, Repr

structure State where
  /-- the seven registers -/
  regs : Regs
  /-- `ev_valid` (R261) -/
  evValid : Bool
  /-- `ev[70:0]`, unspecified while `evValid` is false (R84, R89) -/
  ev : Event
  /-- the line `ok` of the checksum comparator (40_crc32.md R106): a wire inside the block and no register, driven by
  `CRC.CHK`; it selects R158 or R159 in the same step and nothing reads it later (log 7) -/
  chkOk : Bool
  /-- the MODEL's own counter, which names the free values of the idle `ev` lines (log 3) -/
  tick : Nat
  /-- the instance parameter `SIG`; no step changes it (R5, log 1) -/
  cfg : Config
  /-- the host's side: what it will present, the next cycle first; when empty it presents nothing (log 4) -/
  inputs : List Input
  /-- the host's side: the events it has taken, oldest first (R32, R267, log 4) -/
  log : List Event
  deriving DecidableEq, Repr

/-- The machine right after reset: `S0`, no event presented (R33, R263). The `ev` lines and the comparator's line
are free values (log 3, log 7); the parameter has its default (log 1); the host has presented and taken nothing (log 4). -/
def State.reset : State where
  regs := Regs.s0
  evValid := false
  ev := Event.ofWord (Config.freeEvWord 0)
  chkOk := Config.freeChk
  tick := 1
  cfg := Config.standard
  inputs := []
  log := []

/-- The reasons to fault: none. "The block never halts, hangs, or needs a reset after a failure" (60_exceptions.md R235);
the three parse failures are values of `Status`, not faults. -/
inductive Fault where
  deriving DecidableEq, Repr

/-- The reasons to refuse. -/
inductive Refusal where
  /-- An instruction that has no meaning yet; raised by an arm of `exec` only, and by none of the arms now. Safe. -/
  | notModelled (mnemonic : String)
  deriving DecidableEq, Repr

end Sys2Proof.Machine
end

