-- ==== Sys2Proof/Machine/Ops.lean ====
section
/-! DEFINITION. The shared operations: register updates, the unit operations on registers, taking a failure and returning
from it, the step of `BYTE` and of `END` as functions `Regs → Regs × Option Event` (spec/00_scope.md R9), and the event
port. -/

namespace Sys2Proof.Machine

/-! ### Registers -/

/-- `pc <- (P, n)`, the pair of `phase` and `cnt` (00_scope.md R8). -/
def Regs.setPc (r : Regs) (p : Phase) (n : Word) : Regs := { r with phase := p, cnt := n }

/-- `raise E`: taking a failure. `phase <- FAIL; err <- code(E); cnt <- 0`, nothing saved, no event (R236). -/
def Regs.raise (r : Regs) (e : Status) : Regs := { r with phase := .fail, err := e, cnt := 0 }

/-- The states of R34, which are all a run reaches. -/
def Regs.legal (r : Regs) : Bool :=
  match r.phase with
  | .sig => decide (r.cnt ≤ 7) && decide (r.err = .ok)
  | .len | .type | .crc => decide (r.cnt ≤ 3) && decide (r.err = .ok)
  | .data => decide (r.cnt < r.len) && decide (r.err = .ok)
  | .fail => decide (r.cnt = 0) && (decide (r.err = .badSignature) || decide (r.err = .checksumMismatch))

/-- The phase that selects the rule of a step. DESIGN CHOICE (log 2): a pattern that no run reaches acts as `FAIL` with
`err` kept, as R34 and U7 advise. -/
def Regs.effPhase (r : Regs) : Phase := if r.legal then r.phase else .fail

/-! ### Unit operations on registers -/

/-- `BE.SHIFT r, d` (R121). -/
def Regs.beShift (r : Regs) (reg : BeReg) (d : Byte) : Regs :=
  match reg with
  | .len => { r with len := shiftIn r.len d }
  | .rx => { r with rx := shiftIn r.rx d }

/-- `TC.SHIFT d` (R136). -/
def Regs.tcShift (r : Regs) (d : Byte) : Regs := { r with typ := shiftIn r.typ d }

/-- `CRC.INIT`: the step writes `crc <- crc_step(0xFFFFFFFF, d)`; it is not a separate write (R104). -/
def Regs.crcInit (r : Regs) (d : Byte) : Regs := { r with crc := crcStep crcOnes d }

/-- The `w` of R105: `0xFFFFFFFF` if this step also does `CRC.INIT` (phase `TYPE`, `cnt = 0`), else `crc`. -/
def Regs.crcWorking (r : Regs) : Word := if r.phase = .type ∧ r.cnt = 0 then crcOnes else r.crc

/-- `CRC.UPD d`: `crc <- crc_step(w, d)` (R105). -/
def Regs.crcUpd (r : Regs) (d : Byte) : Regs := { r with crc := crcStep r.crcWorking d }

/-- `ok` of `CRC.CHK`: `rx' = crc ^ 0xFFFFFFFF` with `rx' = {rx[23:0], d}` (R106). It selects R158 or R159; the operation
writes nothing (R35): `rx` is written by `BE.SHIFT`, and `phase`, `cnt`, `err` by the sequencer. -/
def Regs.crcOk (r : Regs) (d : Byte) : Bool := decide (shiftIn r.rx d = r.crc ^^^ crcOnes)

/-! ### The step of a command: R9's `Step`, selected by the table of R150 -/

/-- `BYTE d`: R151, R152 in `SIG`; R153 in `LEN`; R154, R155 in `TYPE`; R156 in `DATA`; R157 to R159 in `CRC`; R160 in
`FAIL`. -/
def byteStep (cfg : Config) (r : Regs) (d : Byte) : Regs × Option Event :=
  match r.effPhase with
  | .sig =>
    if d = cfg.sigByte r.cnt then (if r.cnt = 7 then r.setPc .len 0 else r.setPc .sig (r.cnt + 1), none)
    else (r.raise .badSignature, none)
  | .len =>
    let r' := r.beShift .len d
    (if r.cnt = 3 then r'.setPc .type 0 else r'.setPc .len (r.cnt + 1), none)
  | .type =>
    let r' := (r.crcUpd d).tcShift d
    if r.cnt = 3 then
      (if r.len = 0 then r'.setPc .crc 0 else r'.setPc .data 0,
        some ⟨.hdr, r.len, r'.typ, hdrFlags (TypeCode.ofWord r'.typ)⟩)
    else (r'.setPc .type (r.cnt + 1), none)
  | .data =>
    let r' := r.crcUpd d
    (if r.cnt + 1 = r.len then r'.setPc .crc 0 else r'.setPc .data (r.cnt + 1),
      some ⟨.pay, r.cnt, d.setWidth 32, 0⟩)
  | .crc =>
    let r' := r.beShift .rx d
    if r.cnt = 3 then
      (if r.crcOk d then (r'.setPc .len 0, some ⟨.eoc, r'.rx, 0, 0⟩) else (r'.raise .checksumMismatch, none))
    else (r'.setPc .crc (r.cnt + 1), none)
  | .fail => (r, none)

/-- The status an `END` reports: R161 in `SIG`, R162 at a record boundary, R163 inside a record, R164 in `FAIL`. -/
def endStatus (r : Regs) : Status :=
  match r.effPhase with
  | .sig => .badSignature
  | .len => if r.cnt = 0 then .ok else .truncated
  | .type | .data | .crc => .truncated
  | .fail => r.err

/-- `DONE(zext_32(status), 0, 0)` (R88). -/
def doneEvent (st : Status) : Event := ⟨.done, st.code.setWidth 32, 0, 0⟩

/-- `END`: emit `DONE`, then all seven registers return to `S0` (R161 to R165). This is the only return from `FAIL` but
reset (R239). -/
def endStep (r : Regs) : Regs × Option Event := (Regs.s0, some (doneEvent (endStatus r)))

/-! ### The event port -/

/-- The event presented now, if any: `ev` counts only with `ev_valid = 1` (R84, R89). -/
def State.event (s : State) : Option Event := if s.evValid then some s.ev else none

/-- The level output `st_phase[2:0]` (R30, R261). -/
def State.stPhase (s : State) : BitVec 3 := s.regs.phase.code

/-- The level output `st_err[1:0]` (R30, R261). -/
def State.stErr (s : State) : BitVec 2 := s.regs.err.code

/-- Every event emitted so far: those the host has taken and the one presented now. -/
def State.trace (s : State) : List Event := s.log ++ s.event.toList

/-- The end of a cycle: the host takes the event presented in it (R267), the registers become `r`, and the event `e` of
the step, if any, is presented in the next cycle (R270). Without one the `ev` lines are a free value (R89, log 3). -/
def State.commit (s : State) (r : Regs) (e : Option Event) : State :=
  { s with
    regs := r
    log := s.trace
    evValid := e.isSome
    ev := e.getD (Event.ofWord (Config.freeEvWord s.tick))
    tick := s.tick + 1 }

/-- An idle cycle: registers kept, no event emitted (R260). -/
def State.idle (s : State) : State := s.commit s.regs none

/-- A cycle with `rst = 1`: `S0`, no event emitted (R263). -/
def State.resetCycle (s : State) : State := s.commit Regs.s0 none

/-- `emit`-ed event on the port for one cycle with `ev_valid = 1`, and taken by the host in it (R84, R267). -/
def State.present (s : State) (e : Event) : State := ({ s with ev := e, evValid := true }).idle

/-- `CRC.CHK` drives the comparator's line; no register is written (R106, R35). -/
def State.crcChk (s : State) (d : Byte) : State := { s with chkOk := s.regs.crcOk d }

/-- The comparator's line in the step of `BYTE d`: driven by the step that invokes `CRC.CHK`, the one that takes the fourth
checksum byte (R106), and kept by every other step, where nothing reads it (log 7). -/
def State.driveChk (s : State) (d : Byte) : State :=
  { s with chkOk := if s.regs.effPhase = .crc ∧ s.regs.cnt = 3 then s.regs.crcOk d else s.chkOk }

/-- The step of `BYTE d`. -/
def State.acceptByte (s : State) (d : Byte) : State :=
  (s.driveChk d).commit (byteStep s.cfg s.regs d).1 (byteStep s.cfg s.regs d).2

/-- The step of `END`. -/
def State.acceptEnd (s : State) : State := s.commit (endStep s.regs).1 (endStep s.regs).2

/-- The steps of one `BYTE` command per byte, in order (R51). -/
def State.feed (s : State) : List Byte → State
  | [] => s
  | d :: rest => (s.acceptByte d).feed rest

/-! ### The host's side -/

/-- The cycle that presents `BYTE d`. -/
def byteCycle (d : Byte) : Input := .cycle false true (byteWord d)

/-- The cycle that presents `END`. -/
def endCycle : Input := .cycle false true endWord

/-- A cycle in which nothing is presented. -/
def idleCycle : Input := .cycle false false 0

/-- The commands of one run over a buffer: a `BYTE` for every byte, then `END` (R90, pseudo-instruction `BUFFER` of R91). -/
def bufferCycles (buf : List Byte) : List Input := buf.map byteCycle ++ [endCycle]

/-- `s` with another list of things the host will present. -/
def State.withInputs (s : State) (l : List Input) : State := { s with inputs := l }

/-- A group of bytes that is not one wire record is presented as its `BYTE` commands, one per cycle (log 6). -/
def State.expand (s : State) (bytes : List Byte) : State :=
  s.withInputs (bytes.map byteCycle ++ s.inputs)

/-- `cmd_ready` in a cycle: 1 whenever `rst = 0` (R80, R261). -/
def cmdReady (rst : Bool) : Bool := !rst

end Sys2Proof.Machine
end

