-- ==== Sys2Proof/Machine/Commands.lean ====
section
/-! DEFINITION. The meanings of the two commands (spec/43_deserializer.md). -/

namespace Sys2Proof.Machine

/-- `BYTE d` (R81, R151 to R160). -/
def execByte (d : Byte) (s : State) : Host.Outcome State Fault Refusal := .next (s.acceptByte d)

/-- `END` (R82, R161 to R165). -/
def execEnd (s : State) : Host.Outcome State Fault Refusal := .next s.acceptEnd

end Sys2Proof.Machine
end

