-- ==== Sys2Proof/Machine/Events.lean ====
section
/-! DEFINITION. The meanings of the four events: the event word stands on the event port for one cycle with
`ev_valid = 1` and the host takes it in that cycle (spec/30_encoding.md R84 to R88, spec/70_reset_and_hazards.md R267). No
register changes. Which step emits which event is the business of `byteStep` and `endStep`. -/

namespace Sys2Proof.Machine

/-- `HDR(a, b, f)` (R85). -/
def execHdr (a b : Word) (f : BitVec 5) (s : State) : Host.Outcome State Fault Refusal := .next (s.present ⟨.hdr, a, b, f⟩)

/-- `PAY(a, b, f)` (R86). -/
def execPay (a b : Word) (f : BitVec 5) (s : State) : Host.Outcome State Fault Refusal := .next (s.present ⟨.pay, a, b, f⟩)

/-- `EOC(a, b, f)` (R87). -/
def execEoc (a b : Word) (f : BitVec 5) (s : State) : Host.Outcome State Fault Refusal := .next (s.present ⟨.eoc, a, b, f⟩)

/-- `DONE(a, b, f)` (R88). -/
def execDone (a b : Word) (f : BitVec 5) (s : State) : Host.Outcome State Fault Refusal := .next (s.present ⟨.done, a, b, f⟩)

end Sys2Proof.Machine
end

