-- ==== Sys2Proof/Machine/Units.lean ====
section
/-! DEFINITION. The meanings of the seven unit operations, each alone: what that unit writes in the step of the `BYTE d`
that invokes it, and nothing else (spec/10_state.md R35). Every one reads the state before the step (R7). DESIGN CHOICE
(log 7): run alone, an operation has its pseudocode's effect in every phase; `BYTE` invokes it in the phase its row names. -/

namespace Sys2Proof.Machine

/-- `CRC.INIT` (R104): writes `crc`. -/
def execCrcInit (d : Byte) (s : State) : Host.Outcome State Fault Refusal := .next { s with regs := s.regs.crcInit d }

/-- `CRC.UPD d` (R105): writes `crc`. -/
def execCrcUpd (d : Byte) (s : State) : Host.Outcome State Fault Refusal := .next { s with regs := s.regs.crcUpd d }

/-- `CRC.CHK` (R106): drives the line `ok`, which selects R158 or R159 in the step of the `BYTE`; writes no register and
emits nothing (R35). -/
def execCrcChk (d : Byte) (s : State) : Host.Outcome State Fault Refusal := .next (s.crcChk d)

/-- `BE.SHIFT r, d` (R121): writes `r`. -/
def execBeShift (r : BeReg) (d : Byte) (s : State) : Host.Outcome State Fault Refusal :=
  .next { s with regs := s.regs.beShift r d }

/-- `TC.SHIFT d` (R136): writes `typ`. -/
def execTcShift (d : Byte) (s : State) : Host.Outcome State Fault Refusal := .next { s with regs := s.regs.tcShift d }

/-- `TC.FLAGS` (R137): `ev_f[3:0] = flags4(T)`, `T` the bytes of `typ' = {typ[23:0], d}`; no register. -/
def execTcFlags (d : Byte) (s : State) : Host.Outcome State Fault Refusal :=
  .next { s with ev := { s.ev with f := setFlags s.ev.f (flags4 (TypeCode.ofWord (shiftIn s.regs.typ d))) } }

/-- `TC.VALID` (R137): `ev_f[4] = tc_valid(T)`, `T` the bytes of `typ' = {typ[23:0], d}`; no register. -/
def execTcValid (d : Byte) (s : State) : Host.Outcome State Fault Refusal :=
  .next { s with ev := { s.ev with f := setValid s.ev.f (tcValid (TypeCode.ofWord (shiftIn s.regs.typ d))) } }

end Sys2Proof.Machine
end

