-- ==== Sys2Proof/Machine/Wire.lean ====
section
/-! DEFINITION. The meanings of the two wire records: what the block does as it takes their bytes, one `BYTE` each
(spec/30_encoding.md R71, R72; spec/20_memory.md R51, R54). The failures of R76 show as the failures of those steps. -/

namespace Sys2Proof.Machine

/-- `SIGNATURE`: the eight bytes `SIG[0..7]` (R71). -/
def execSignature (s : State) : Host.Outcome State Fault Refusal := .next (s.feed s.cfg.sig.toList)

/-- `CHUNK`: the bytes of one record, in wire order (R72). -/
def execChunk (length : Word) (type : TypeCode) (payload : List Byte) (checksum : Word) (s : State) :
    Host.Outcome State Fault Refusal :=
  .next (s.feed (chunkBytes length type payload checksum))

end Sys2Proof.Machine
end

