-- ==== Sys2Proof/Machine/Dispatch.lean ====
section
/-! DEFINITION. The dispatch: one arm per constructor of Instr, each one direct call of its meaning. -/

namespace Sys2Proof.Machine

def exec (i : Instr) (s : State) : Host.Outcome State Fault Refusal :=
  match i with
  | .byte d => Sys2Proof.Machine.execByte d s
  | .endBuf => Sys2Proof.Machine.execEnd s
  | .signature => Sys2Proof.Machine.execSignature s
  | .chunk length type payload checksum => Sys2Proof.Machine.execChunk length type payload checksum s
  | .hdr a b f => Sys2Proof.Machine.execHdr a b f s
  | .pay a b f => Sys2Proof.Machine.execPay a b f s
  | .eoc a b f => Sys2Proof.Machine.execEoc a b f s
  | .done a b f => Sys2Proof.Machine.execDone a b f s
  | .crcInit d => Sys2Proof.Machine.execCrcInit d s
  | .crcUpd d => Sys2Proof.Machine.execCrcUpd d s
  | .crcChk d => Sys2Proof.Machine.execCrcChk d s
  | .beShift r d => Sys2Proof.Machine.execBeShift r d s
  | .tcShift d => Sys2Proof.Machine.execTcShift d s
  | .tcFlags d => Sys2Proof.Machine.execTcFlags d s
  | .tcValid d => Sys2Proof.Machine.execTcValid d s

end Sys2Proof.Machine
end

