-- ==== Sys2Proof/Machine/Step.lean ====
section
/-! DEFINITION. One step: the next thing on the host's side, one clock cycle or one whole wire record (log 5, log 6).
Fetch is the command port; the event port is served in idle cycles; there is no other instruction memory (R50). -/

namespace Sys2Proof.Machine

/-- A cycle in which no command is accepted and `rst = 0` (R260): the event instruction on the event port is run if there
is one, which hands it to the host; else nothing happens. -/
def stepIdle (s : State) : Host.Outcome State Fault Refusal :=
  match s.event with
  | some e => exec e.toInstr s
  | none => .next s.idle

/-- One step. `rst` dominates (R263); a command is accepted in each cycle with `rst = 0` and `cmd_valid = 1` (R80). -/
def step (s : State) : Host.Outcome State Fault Refusal :=
  match s.inputs with
  | [] => stepIdle s
  | .cycle rst cmdValid cmd :: rest =>
    if rst then .next (s.withInputs rest).resetCycle
    else if cmdValid then exec (decodeCmd cmd) (s.withInputs rest)
    else stepIdle (s.withInputs rest)
  | .record bytes :: rest =>
    match decodeWire s.cfg s.regs.phase s.regs.cnt bytes with
    | .ok i => exec i (s.withInputs rest)
    | .error _ => .next ((s.withInputs rest).expand bytes)

/-- `s` with the instruction of a table word where the next step fetches (log 10): a command word on the command port; a
wire record handed over next, the registers at offset 0 for the signature and at a record boundary for a record; an event
word on the event port before an idle cycle. -/
def State.withFetchWord (s : State) (nbits w : Nat) : State :=
  if nbits ≤ 16 then s.withInputs (.cycle false true (BitVec.ofNat 9 w) :: s.inputs)
  else if nbits = 64 then
    (if tableBytes w = s.cfg.sig.toList then
      { s with regs := s.regs.setPc .sig 0, inputs := .record (tableBytes w) :: s.inputs }
     else { s with regs := s.regs.setPc .len 0, inputs := .record (tableRecord w) :: s.inputs })
  else { s with ev := Event.ofWord (BitVec.ofNat 71 w), evValid := true, inputs := idleCycle :: s.inputs }

end Sys2Proof.Machine
end

