-- ==== Sys2Proof/Machine/Reference.lean ====
section
/-! DEFINITION. The reference model (spec/44_reference_model.md): the parse and the serialisation as pure functions, the
result of a run (spec/43_deserializer.md R170), and the software operations around the block (R205 to R214). None of it is
a register, a port or a command. -/

namespace Sys2Proof

/-- A chunk: `length`, `type`, `data`, `crc` (R190, R192). -/
structure Chunk where
  length : Word
  type : TypeCode
  data : List Byte
  crc : Word
  deriving DecidableEq, Repr

/-- The two invariants of every chunk (R191). -/
def Chunk.sound (c : Chunk) : Bool :=
  decide (c.data.length = c.length.toNat) && decide (c.crc = crc32 (c.type.bytes ++ c.data))

/-! ### Parsing -/

/-- The last read of `parse_chunk`: the checksum, and the comparison (R193). -/
def parseTail (length : Word) (type : TypeCode) (payload : List Byte) : List Byte → Except Status (Chunk × List Byte)
  | c0 :: c1 :: c2 :: c3 :: rest =>
    if crc32 (type.bytes ++ payload) = be32 c0 c1 c2 c3 then .ok (⟨length, type, payload, be32 c0 c1 c2 c3⟩, rest)
    else .error .checksumMismatch
  | _ => .error .truncated

/-- `parse_chunk(b)`: one record from the front of `b`, and what follows it (R193). -/
def parseChunk : List Byte → Except Status (Chunk × List Byte)
  | l0 :: l1 :: l2 :: l3 :: b1 =>
    match b1 with
    | t0 :: t1 :: t2 :: t3 :: b2 =>
      let n := (be32 l0 l1 l2 l3).toNat
      if b2.length < n then .error .truncated
      else parseTail (be32 l0 l1 l2 l3) ⟨t0, t1, t2, t3⟩ (b2.take n) (b2.drop n)
    | _ => .error .truncated
  | _ => .error .truncated

/-- The loop of `parse_container`: records until none remain, all or nothing (R194, R195). A record takes at least 12
bytes, so `fuel` equal to the number of bytes suffices. -/
def parseRecords : Nat → List Byte → Except Status (List Chunk)
  | _, [] => .ok []
  | 0, _ :: _ => .error .truncated
  | fuel + 1, b :: bs =>
    match parseChunk (b :: bs) with
    | .error e => .error e
    | .ok (c, rest) =>
      match parseRecords fuel rest with
      | .error e => .error e
      | .ok cs => .ok (c :: cs)

/-- `parse_container(buf)` (R194); a buffer of fewer than 8 bytes is `BadSignature` (D9). -/
def parseContainer (cfg : Config) (buf : List Byte) : Except Status (List Chunk) :=
  if buf.take 8 = cfg.sig.toList then parseRecords (buf.drop 8).length (buf.drop 8) else .error .badSignature

/-! ### Serialising -/

/-- `ser_chunk(c)` (R201). -/
def serChunk (c : Chunk) : List Byte := chunkBytes c.length c.type c.data c.crc

/-- The records of `ser_container`, in order, with no separators (R202). -/
def serRecords : List Chunk → List Byte
  | [] => []
  | c :: cs => serChunk c ++ serRecords cs

/-- `ser_container(cs) = SIG ++ ser_chunk(cs[0]) ++ ...` (R202). -/
def serContainer (cfg : Config) (cs : List Chunk) : List Byte := cfg.sig.toList ++ serRecords cs

/-! ### The result of a run -/

/-- The chunks of the `HDR ... EOC` groups of an event list, in order; `cur` is the group being collected (R170). -/
def groupChunks : Option Chunk → List Event → List Chunk
  | _, [] => []
  | cur, e :: es =>
    match e.kind with
    | .hdr => groupChunks (some ⟨e.a, TypeCode.ofWord e.b, [], 0⟩) es
    | .pay => groupChunks (cur.map fun c => { c with data := c.data ++ [e.b.extractLsb' 0 8] }) es
    | .eoc =>
      match cur with
      | some c => { c with crc := e.a } :: groupChunks none es
      | none => groupChunks none es
    | .done => groupChunks cur es

/-- `Result(E)`: `Err(kind)` if the `DONE` at the end has `ev_a != 0`, else `Ok` of the chunks (R170). `none` if the run
has no `DONE` at its end: it is not over, and has no result (R265). -/
def result (events : List Event) : Option (Except Status (List Chunk)) :=
  match events.getLast? with
  | none => none
  | some e =>
    match e.kind with
    | .done =>
      if e.a = 0 then some (.ok (groupChunks none events))
      else some (.error (Status.ofCode (e.a.extractLsb' 0 2)))
    | .hdr | .pay | .eoc => none

/-- The events of the record of a chunk: `HDR`, one `PAY` per byte, `EOC` (R173). -/
def payEvents : Word → List Byte → List Event
  | _, [] => []
  | n, d :: rest => ⟨.pay, n, d.setWidth 32, 0⟩ :: payEvents (n + 1) rest

/-- `HDR(len, typ, {tc_valid, flags4})` of a record (R85). -/
def hdrEvent (length : Word) (type : TypeCode) : Event := ⟨.hdr, length, type.pack, hdrFlags type⟩

/-- `EOC(checksum, 0, 0)` of a record (R87). -/
def eocEvent (checksum : Word) : Event := ⟨.eoc, checksum, 0, 0⟩

/-- The complete group of a chunk's record (R173). -/
def chunkEvents (c : Chunk) : List Event := hdrEvent c.length c.type :: payEvents 0 c.data ++ [eocEvent c.crc]

/-- The events of the records of a container (R173). -/
def recordsEvents : List Chunk → List Event
  | [] => []
  | c :: cs => chunkEvents c ++ recordsEvents cs

/-! ### Stream assembly (R90, R91) -/

/-- The pseudo-instructions of the stream assembly, and the two commands (R90, R91). -/
inductive StreamLine where
  | byte (d : Byte)
  | endBuf
  | sig
  | u32 (v : Word)
  | ascii (text : List Byte)
  | raw (bytes : List Byte)
  | chunk (type : TypeCode) (payload : List Byte)
  | buffer (bytes : List Byte)
  deriving DecidableEq, Repr

/-- The commands a line stands for (R91). -/
def StreamLine.expand (cfg : Config) : StreamLine → List Instr
  | .byte d => [.byte d]
  | .endBuf => [.endBuf]
  | .sig => cfg.sig.toList.map Instr.byte
  | .u32 v => (be32Bytes v).map Instr.byte
  | .ascii text => text.map Instr.byte
  | .raw bytes => bytes.map Instr.byte
  | .chunk type payload =>
    (chunkBytes (BitVec.ofNat 32 payload.length) type payload (crc32 (type.bytes ++ payload))).map Instr.byte
  | .buffer bytes => bytes.map Instr.byte ++ [.endBuf]

/-! ### Software around the block (R205 to R214). Text is the sequence of its bytes in UTF-8. -/

/-- The error kinds of the software operations, none of which the block can produce (R215). -/
inductive SoftError where
  | invalidFormat | invalidLength | invalidUtf8 | notFound
  deriving DecidableEq, Repr

/-- `chunk_new(T, P)` (R205). `none` for a payload of 2^32 bytes or more, which the document does not address (U11). -/
def chunkNew (type : TypeCode) (payload : List Byte) : Option Chunk :=
  if payload.length < 2 ^ 32 then
    some ⟨BitVec.ofNat 32 payload.length, type, payload, crc32 (type.bytes ++ payload)⟩
  else none

/-- `typecode_from_text(s)`: `InvalidLength` unless exactly 4 bytes; no validity test (R206). -/
def typecodeFromText : List Byte → Except SoftError TypeCode
  | [t0, t1, t2, t3] => .ok ⟨t0, t1, t2, t3⟩
  | _ => .error .invalidLength

/-- Strict construction: `InvalidFormat` unless `tc_valid` (R207). -/
def typecodeStrict (t : TypeCode) : Except SoftError TypeCode := if tcValid t then .ok t else .error .invalidFormat

/-- Construction from user text under the policy R207 and U3 leave open: reject an invalid code, or only flag it. -/
def typecodeFromUser (reject : Bool) (s : List Byte) : Except SoftError TypeCode :=
  match typecodeFromText s with
  | .error e => .error e
  | .ok t => if reject then typecodeStrict t else .ok t

/-- Are all bytes below `0x80`? -/
def allAscii (bs : List Byte) : Bool := bs.all fun b => decide (b.toNat < 0x80)

/-- `typecode_to_text(T)`: the 4 bytes as text. Defined for bytes below `0x80` only, as U2 rules: a valid type code is among
them (R208). -/
def typecodeToText (t : TypeCode) : Option (List Byte) := if allAscii t.bytes then some t.bytes else none

/-- Valid text encoding: bytes below `0x80` are (G6); of other bytes it is a free value (N16, log 11). -/
def isText (bs : List Byte) : Bool := allAscii bs || Config.freeUtf8 bs

/-- `chunk_data_as_text(c)`: the payload as text, its bytes unchanged, or `InvalidUtf8` (R209). -/
def dataAsText (c : Chunk) : Except SoftError (List Byte) := if isText c.data then .ok c.data else .error .invalidUtf8

/-- `container_signature()` (R210). -/
def containerSignature (cfg : Config) : List Byte := cfg.sig.toList

/-- Does a chunk's type code have this text? (R211) A type code whose text U2 leaves undefined has none (log 11). -/
def Chunk.named (text : List Byte) (c : Chunk) : Bool := decide (typecodeToText c.type = some text)

/-- `chunk_by_type(cs, t)`: the first chunk of that type, in sequence order; `none` if absent (R211, C4). -/
def chunkByType (cs : List Chunk) (text : List Byte) : Option Chunk := cs.find? (Chunk.named text)

/-- `append_chunk(cs, c)` (R212). -/
def appendChunk (cs : List Chunk) (c : Chunk) : List Chunk := cs ++ [c]

/-- `remove_chunk(cs, t)`: the first chunk of that type and the sequence without it, or `NotFound` (R213). -/
def removeChunk (text : List Byte) : List Chunk → Except SoftError (Chunk × List Chunk)
  | [] => .error .notFound
  | c :: cs =>
    if c.named text then .ok (c, cs)
    else match removeChunk text cs with
      | .error e => .error e
      | .ok (found, rest) => .ok (found, c :: rest)

end Sys2Proof
end

