-- ==== Sys2Proof/Safety.lean ====
section
/-! DEFINITION. What a safe state and a safe run are, in the terms the statements use. -/

namespace Sys2Proof.Machine

/-- The invariant of every step: the registers are one of R34's states, and every event presented or taken is well formed
(unused fields zero, flags those of the type code, R84 to R88). -/
def State.Inv (s : State) : Prop := s.regs.legal = true ∧ ∀ e ∈ s.trace, e.wellFormed = true

/-- A record boundary: the next byte is the first length byte of a record, and no failure is latched (R21, R34). -/
def Regs.atBoundary (r : Regs) : Prop := r.phase = .len ∧ r.cnt = 0 ∧ r.err = .ok

/-- `exec i s` goes on, with registers `r` and event `e` (`none`: no event). Everything else is framed: what was presented
is now taken, the inputs and the parameter are kept. -/
def Steps (i : Instr) (s : State) (r : Regs) (e : Option Event) : Prop :=
  ∃ t, exec i s = .next t ∧ t.regs = r ∧ t.event = e ∧ t.log = s.trace ∧ t.inputs = s.inputs ∧ t.cfg = s.cfg

/-- The meanings of a list of instructions, one after the other; `none` if one of them stops. -/
def execAll : List Instr → State → Option State
  | [], s => some s
  | i :: is, s =>
    match exec i s with
    | .next t => execAll is t
    | .fault _ => none
    | .refused _ => none

/-- `k` steps of the machine from `s` go on and end in `t`. -/
def Reaches (k : Nat) (s t : State) : Prop := Sys2Proof.core.run k s = .next t

/-- The start of a run over the buffer `buf`: `S0`, nothing presented, and the host is about to present the buffer and
`END` (R9, R90). -/
def State.startsRun (s : State) (buf : List Byte) : Prop :=
  s.regs = Regs.s0 ∧ s.event = none ∧ s.inputs = bufferCycles buf

/-- Every thing on the host's side is an accepted command or an idle cycle. -/
def Input.quiet : Input → Bool
  | .cycle rst _ _ => !rst
  | .record _ => false

/-- Is it a cycle that presents a command? -/
def Input.isCommand : Input → Bool
  | .cycle _ cmdValid _ => cmdValid
  | .record _ => false

/-- Does a list of events have the shape of one whole run, `( HDR PAY{n} EOC )* [ HDR PAY{m} ] DONE`? `cur` is `none`
between groups and `some (n, k)` inside a group of declared length `n` after `k` payload events; an incomplete group is
followed by a `DONE` with `Truncated` or `ChecksumMismatch` (R173). -/
def runShape : Option (Word × Nat) → List Event → Bool
  | _, [] => false
  | none, e :: es =>
    match e.kind with
    | .hdr => runShape (some (e.a, 0)) es
    | .done => es.isEmpty && decide (e.a.toNat < 4)
    | .pay | .eoc => false
  | some (n, k), e :: es =>
    match e.kind with
    | .pay => decide (e.a.toNat = k) && decide (k < n.toNat) && runShape (some (n, k + 1)) es
    | .eoc => decide (k = n.toNat) && runShape none es
    | .done => es.isEmpty && (decide (e.a = 2) || decide (e.a = 3))
    | .hdr => false

end Sys2Proof.Machine
end

