-- ==== Sys2Proof/Certificates/Slice0/Obligations.lean ====
section
/-! DEFINITION. The statements for the provers, one per property, from the numbered rules of spec/. -/

open Sys2Proof Sys2Proof.Machine

/-! ### Encodings -/

/-- Words written out from the spec's layouts (R71, R72, R80 to R82, R84) and its examples (95_test_vectors.md V1, P1)
decode to the instructions they stand for. -/
def Obligations.SampleWordsDecode : Prop :=
  decodeCmd 0b010001001 = .byte 0x89 ∧ decodeCmd 0b100000000 = .endBuf ∧ decodeCmd 0b111111111 = .endBuf ∧
  decode Config.standard .sig 0 (.wire [0x89, 0x50, 0x4E, 0x47, 0x0D, 0x0A, 0x1A, 0x0A]) = .ok .signature ∧
  decode Config.standard .len 0 (.wire [0, 0, 0, 0, 0x49, 0x45, 0x4E, 0x44, 0xAE, 0x42, 0x60, 0x82]) =
    .ok (.chunk 0 ⟨0x49, 0x45, 0x4E, 0x44⟩ [] 0xAE426082) ∧
  decode Config.standard .sig 0 (.evt 0x000000054A4EAA6E95) = .ok (.hdr 42 0x52755374 0x15) ∧
  decode Config.standard .sig 0 (.evt 0x200000052000000420) = .ok (.pay 41 0x21 0) ∧
  decode Config.standard .sig 0 (.evt 0x557A3B09C000000000) = .ok (.eoc 0xABD1D84E 0 0) ∧
  decode Config.standard .sig 0 (.evt 0x600000000000000000) = .ok (.done 0 0 0)

/-- The match and mask of the two command words, and that END ignores its low bits (R81, R82). -/
def Obligations.CommandWordsMatchMask : Prop :=
  ∀ w : BitVec 9, (w &&& 0x100 = 0x000 → ∃ d : Byte, w = 0#1 ++ d ∧ decodeCmd w = .byte d) ∧
    (w &&& 0x100 = 0x100 → decodeCmd w = .endBuf)

/-- The event word is a bijection with the four fields at the places of R84. -/
def Obligations.EventWordLayout : Prop :=
  (∀ e : Event, e.word.extractLsb' 69 2 = e.kind.code ∧ e.word.extractLsb' 37 32 = e.a ∧
    e.word.extractLsb' 5 32 = e.b ∧ e.word.extractLsb' 0 5 = e.f ∧ Event.ofWord e.word = e) ∧
  ∀ w : BitVec 71, (Event.ofWord w).word = w

/-- Decode of encode is the identity on every well-formed command, record and event, whatever `SIG` is (R71, R72, R80 to
R88). -/
def Obligations.DecodeEncodeRoundTrip : Prop :=
  ∀ (cfg : Config) (i : Instr), i.wellFormed = true → i.format ≠ .unit →
    decode cfg i.place.1 i.place.2 (encode cfg i) = .ok i

/-- Encode of decode gives back the words, but for the ignored low bits of END; a decoded record is well formed. -/
def Obligations.EncodeDecodeRoundTrip : Prop :=
  ∀ (cfg : Config) (p : Phase) (cnt : Word) (w : Words) (i : Instr), decode cfg p cnt w = .ok i →
    (encode cfg i = w ∨ (i = .endBuf ∧ ∃ x : Byte, w = .cmd (1#1 ++ x))) ∧
    (i.format ≠ .evt → i.wellFormed = true)

/-- A unit operation carries the pattern of the BYTE that invokes it, and is told apart by phase and count (R92). -/
def Obligations.UnitOpsCarryTheBytePattern : Prop :=
  ∀ (cfg : Config) (p : Phase) (cnt : Word) (d : Byte),
    (∀ u ∈ decodeUnits p cnt d, u.format = .unit ∧ encode cfg u = encode cfg (.byte d)) ∧
    (Instr.beShift .len d ∈ decodeUnits p cnt d ↔ p = .len) ∧
    (Instr.beShift .rx d ∈ decodeUnits p cnt d ↔ p = .crc) ∧
    (Instr.tcShift d ∈ decodeUnits p cnt d ↔ p = .type) ∧
    (Instr.crcUpd d ∈ decodeUnits p cnt d ↔ p = .type ∨ p = .data) ∧
    (Instr.crcInit d ∈ decodeUnits p cnt d ↔ p = .type ∧ cnt = 0) ∧
    (Instr.crcChk d ∈ decodeUnits p cnt d ↔ p = .crc ∧ cnt = 3) ∧
    (Instr.tcFlags d ∈ decodeUnits p cnt d ↔ p = .type ∧ cnt = 3) ∧
    (Instr.tcValid d ∈ decodeUnits p cnt d ↔ p = .type ∧ cnt = 3)

/-! ### BYTE, rule by rule

`Steps` frames everything a rule does not name. Its clauses on `log`, `inputs` and `cfg` are about what the model carries
for the host (log 1, log 4, log 5), not about a register of the block. -/

/-- R151. -/
def Obligations.ByteMatchesSignature : Prop :=
  ∀ (s : State) (d : Byte), s.regs.legal = true → s.regs.phase = .sig → s.cfg.sig[s.regs.cnt.toNat]? = some d →
    Steps (.byte d) s
      (if s.regs.cnt = 7 then { s.regs with phase := .len, cnt := 0 }
       else { s.regs with phase := .sig, cnt := s.regs.cnt + 1 }) none

/-- R152. -/
def Obligations.ByteDiffersFromSignature : Prop :=
  ∀ (s : State) (d : Byte), s.regs.legal = true → s.regs.phase = .sig → s.cfg.sig[s.regs.cnt.toNat]? ≠ some d →
    Steps (.byte d) s { s.regs with phase := .fail, err := .badSignature, cnt := 0 } none

/-- R153. -/
def Obligations.ByteOfLength : Prop :=
  ∀ (s : State) (d : Byte), s.regs.legal = true → s.regs.phase = .len →
    Steps (.byte d) s
      (if s.regs.cnt = 3 then { s.regs with len := s.regs.len.extractLsb' 0 24 ++ d, phase := .type, cnt := 0 }
       else { s.regs with len := s.regs.len.extractLsb' 0 24 ++ d, phase := .len, cnt := s.regs.cnt + 1 }) none

/-- R154. -/
def Obligations.ByteOfTypeBeforeTheLast : Prop :=
  ∀ (s : State) (d : Byte), s.regs.legal = true → s.regs.phase = .type → s.regs.cnt < 3 →
    Steps (.byte d) s
      { s.regs with
        typ := s.regs.typ.extractLsb' 0 24 ++ d
        crc := crcStep (if s.regs.cnt = 0 then 0xFFFFFFFF else s.regs.crc) d
        phase := .type, cnt := s.regs.cnt + 1 } none

/-- R155. -/
def Obligations.LastByteOfType : Prop :=
  ∀ (s : State) (d : Byte) (typ' : Word), s.regs.legal = true → s.regs.phase = .type → s.regs.cnt = 3 →
    typ' = s.regs.typ.extractLsb' 0 24 ++ d →
    Steps (.byte d) s
      { s.regs with
        typ := typ'
        crc := crcStep s.regs.crc d
        phase := if s.regs.len = 0 then .crc else .data
        cnt := 0 }
      (some ⟨.hdr, s.regs.len, typ', BitVec.ofBool (tcValid (TypeCode.ofWord typ')) ++ flags4 (TypeCode.ofWord typ')⟩)

/-- R156. -/
def Obligations.ByteOfPayload : Prop :=
  ∀ (s : State) (d : Byte), s.regs.legal = true → s.regs.phase = .data →
    Steps (.byte d) s
      (if s.regs.cnt + 1 = s.regs.len then { s.regs with crc := crcStep s.regs.crc d, phase := .crc, cnt := 0 }
       else { s.regs with crc := crcStep s.regs.crc d, phase := .data, cnt := s.regs.cnt + 1 })
      (some ⟨.pay, s.regs.cnt, d.setWidth 32, 0⟩)

/-- R157. -/
def Obligations.ByteOfChecksumBeforeTheLast : Prop :=
  ∀ (s : State) (d : Byte), s.regs.legal = true → s.regs.phase = .crc → s.regs.cnt < 3 →
    Steps (.byte d) s
      { s.regs with rx := s.regs.rx.extractLsb' 0 24 ++ d, phase := .crc, cnt := s.regs.cnt + 1 } none

/-- R158. -/
def Obligations.LastByteOfMatchingChecksum : Prop :=
  ∀ (s : State) (d : Byte) (rx' : Word), s.regs.legal = true → s.regs.phase = .crc → s.regs.cnt = 3 →
    rx' = s.regs.rx.extractLsb' 0 24 ++ d → rx' = s.regs.crc ^^^ 0xFFFFFFFF →
    Steps (.byte d) s { s.regs with rx := rx', phase := .len, cnt := 0 } (some ⟨.eoc, rx', 0, 0⟩)

/-- R159. -/
def Obligations.LastByteOfWrongChecksum : Prop :=
  ∀ (s : State) (d : Byte) (rx' : Word), s.regs.legal = true → s.regs.phase = .crc → s.regs.cnt = 3 →
    rx' = s.regs.rx.extractLsb' 0 24 ++ d → rx' ≠ s.regs.crc ^^^ 0xFFFFFFFF →
    Steps (.byte d) s { s.regs with rx := rx', phase := .fail, err := .checksumMismatch, cnt := 0 } none

/-- R160. (In `FAIL` states no run reaches this is the model's choice, log 2.) -/
def Obligations.ByteDrainedAfterFailure : Prop :=
  ∀ (s : State) (d : Byte), s.regs.phase = .fail → Steps (.byte d) s s.regs none

/-- The model's choice of log 2, which R34 advises: a register pattern that no run reaches acts as FAIL with `err` kept. -/
def Obligations.UnreachedPatternsActAsFail : Prop :=
  ∀ (s : State) (d : Byte), s.regs.legal = false →
    Steps (.byte d) s s.regs none ∧
    Steps .endBuf s Regs.s0 (some ⟨.done, s.regs.err.code.setWidth 32, 0, 0⟩)

/-- R172 for BYTE: which step emits what, with every operand (R155, R156, R158). It holds over all states; that a pattern
outside R34's set emits nothing is the model's choice (log 2). -/
def Obligations.ByteEmitsByRule : Prop :=
  ∀ (s t : State) (d : Byte) (e : Event), exec (.byte d) s = .next t → t.event = some e →
    (e.kind = .hdr ∧ s.regs.phase = .type ∧ s.regs.cnt = 3 ∧ e.a = s.regs.len ∧ e.b = t.regs.typ ∧
      t.regs.typ = s.regs.typ.extractLsb' 0 24 ++ d ∧
      e.f = BitVec.ofBool (tcValid (TypeCode.ofWord t.regs.typ)) ++ flags4 (TypeCode.ofWord t.regs.typ)) ∨
    (e.kind = .pay ∧ s.regs.phase = .data ∧ e.a = s.regs.cnt ∧ e.b = d.setWidth 32 ∧ e.f = 0) ∨
    (e.kind = .eoc ∧ s.regs.phase = .crc ∧ s.regs.cnt = 3 ∧ e.a = s.regs.rx.extractLsb' 0 24 ++ d ∧
      e.a = t.regs.rx ∧ e.a = s.regs.crc ^^^ 0xFFFFFFFF ∧ e.b = 0 ∧ e.f = 0 ∧ t.regs.atBoundary)

/-! ### END -/

/-- R161 with R165. -/
def Obligations.EndInSignature : Prop :=
  ∀ s : State, s.regs.legal = true → s.regs.phase = .sig → Steps .endBuf s ⟨.sig, 0, 0, 0, 0, 0, .ok⟩ (some ⟨.done, 1, 0, 0⟩)

/-- R162 with R165; and only there (R162: "the only way a run ends OK"). -/
def Obligations.EndOnBoundaryOnlyIsOk : Prop :=
  ∀ s : State, s.regs.legal = true →
    (s.regs.phase = .len ∧ s.regs.cnt = 0 → Steps .endBuf s ⟨.sig, 0, 0, 0, 0, 0, .ok⟩ (some ⟨.done, 0, 0, 0⟩)) ∧
    (Steps .endBuf s ⟨.sig, 0, 0, 0, 0, 0, .ok⟩ (some ⟨.done, 0, 0, 0⟩) → s.regs.phase = .len ∧ s.regs.cnt = 0)

/-- R163 with R165. -/
def Obligations.EndInsideRecord : Prop :=
  ∀ s : State, s.regs.legal = true →
    (s.regs.phase = .len ∧ s.regs.cnt ≠ 0) ∨ s.regs.phase = .type ∨ s.regs.phase = .data ∨ s.regs.phase = .crc →
    Steps .endBuf s ⟨.sig, 0, 0, 0, 0, 0, .ok⟩ (some ⟨.done, 2, 0, 0⟩)

/-- R164 with R165: the latched failure, 1 or 3. -/
def Obligations.EndAfterFailure : Prop :=
  ∀ s : State, s.regs.legal = true → s.regs.phase = .fail →
    Steps .endBuf s ⟨.sig, 0, 0, 0, 0, 0, .ok⟩ (some ⟨.done, s.regs.err.code.setWidth 32, 0, 0⟩) ∧
    (s.regs.err.code = 1 ∨ s.regs.err.code = 3)

/-- R165: whatever the state, END leaves S0 and one DONE. (In states no run reaches this is the model's choice, log 2.) -/
def Obligations.EndReturnsToS0 : Prop :=
  ∀ s : State, ∃ st : Status, Steps .endBuf s ⟨.sig, 0, 0, 0, 0, 0, .ok⟩ (some ⟨.done, st.code.setWidth 32, 0, 0⟩)

/-! ### Taking a failure, leaving it, reset, idle cycles, the step -/

/-- A BYTE that fails latches its code and nothing else of the failure, with no event (R231, R233, R236). -/
def Obligations.FailureIsLatchedWithoutEvent : Prop :=
  ∀ (s t : State) (d : Byte), exec (.byte d) s = .next t → s.regs.phase ≠ .fail → t.regs.phase = .fail →
    t.event = none ∧ t.regs.cnt = 0 ∧ t.regs.len = s.regs.len ∧ t.regs.typ = s.regs.typ ∧ t.regs.crc = s.regs.crc ∧
    t.stPhase = 5 ∧
    ((t.stErr = 1 ∧ s.regs.phase = .sig ∧ t.regs.rx = s.regs.rx) ∨
     (t.stErr = 3 ∧ s.regs.phase = .crc ∧ s.regs.cnt = 3 ∧ t.regs.rx = s.regs.rx.extractLsb' 0 24 ++ d))

/-- R239: FAIL is left only by END or by reset, and until then nothing changes. -/
def Obligations.FailLeftOnlyByEndOrReset : Prop :=
  ∀ s t : State, step s = .next t → s.regs.phase = .fail →
    t.regs = s.regs ∨
    (t.regs = Regs.s0 ∧ ∃ rst v w rest, s.inputs = .cycle rst v w :: rest ∧
      (rst = true ∨ (v = true ∧ decodeCmd w = .endBuf)))

/-- R33: every register is zero after reset, and no event is presented (R263). And the codes that the level outputs show in
every state: `st_phase` is 0 to 5 for `SIG`, `LEN`, `TYPE`, `DATA`, `CRC`, `FAIL` (R21, R30), `st_err` 0 to 3 for `OK`,
`BadSignature`, `Truncated`, `ChecksumMismatch` (R30, R230). -/
def Obligations.ResetIsS0 : Prop :=
  (State.reset.stPhase = 0 ∧ State.reset.regs.cnt = 0 ∧ State.reset.regs.len = 0 ∧ State.reset.regs.typ = 0 ∧
    State.reset.regs.crc = 0 ∧ State.reset.regs.rx = 0 ∧ State.reset.stErr = 0 ∧ State.reset.event = none) ∧
  ∀ s : State,
    ((s.stPhase = 0 ↔ s.regs.phase = .sig) ∧ (s.stPhase = 1 ↔ s.regs.phase = .len) ∧
      (s.stPhase = 2 ↔ s.regs.phase = .type) ∧ (s.stPhase = 3 ↔ s.regs.phase = .data) ∧
      (s.stPhase = 4 ↔ s.regs.phase = .crc) ∧ (s.stPhase = 5 ↔ s.regs.phase = .fail)) ∧
    ((s.stErr = 0 ↔ s.regs.err = .ok) ∧ (s.stErr = 1 ↔ s.regs.err = .badSignature) ∧
      (s.stErr = 2 ↔ s.regs.err = .truncated) ∧ (s.stErr = 3 ↔ s.regs.err = .checksumMismatch))

/-- R263: a cycle with `rst = 1` dominates any command. (That the event presented in that very cycle is still taken,
`t.trace = s.trace`, is the model's choice, log 13.) -/
def Obligations.ResetCycleDominates : Prop :=
  ∀ (s : State) (v : Bool) (w : BitVec 9) (rest : List Input), s.inputs = .cycle true v w :: rest →
    cmdReady true = false ∧
    ∃ t, step s = .next t ∧ t.regs = ⟨.sig, 0, 0, 0, 0, 0, .ok⟩ ∧ t.event = none ∧ t.trace = s.trace ∧
      t.inputs = rest ∧ t.cfg = s.cfg

/-- R260: in a cycle without a command every register keeps its value and no event is emitted. And `cmd_ready` is 1 in
every cycle outside reset (R80, R261). -/
def Obligations.IdleCycleKeepsRegisters : Prop :=
  cmdReady false = true ∧
  ∀ s : State, (s.inputs = [] ∨ ∃ w, s.inputs.head? = some (.cycle false false w)) →
    ∃ t, step s = .next t ∧ t.regs = s.regs ∧ t.event = none ∧ t.log = s.trace ∧ t.inputs = s.inputs.tail ∧ t.cfg = s.cfg

/-- A step runs the decoded instruction: the command on the command port, the record handed over, the event on the event
port of an idle cycle. (What an entry of `inputs` is, and that a step is one of them, is the model's choice, log 4 to 6, 8.) -/
def Obligations.StepRunsDecodedInstruction : Prop :=
  ∀ (s : State) (rest : List Input),
    (∀ (w : BitVec 9) (i : Instr), s.inputs = .cycle false true w :: rest →
      decode s.cfg s.regs.phase s.regs.cnt (.cmd w) = .ok i → step s = exec i (s.withInputs rest)) ∧
    (∀ (bs : List Byte) (i : Instr), s.inputs = .record bs :: rest →
      decode s.cfg s.regs.phase s.regs.cnt (.wire bs) = .ok i → step s = exec i (s.withInputs rest)) ∧
    (∀ (w : BitVec 9) (e : Event) (i : Instr), s.inputs = .cycle false false w :: rest → s.event = some e →
      decode s.cfg s.regs.phase s.regs.cnt (.evt e.word) = .ok i → step s = exec i (s.withInputs rest)) ∧
    (∀ (e : Event) (i : Instr), s.inputs = [] → s.event = some e →
      decode s.cfg s.regs.phase s.regs.cnt (.evt e.word) = .ok i → step s = exec i s)

/-- R235: the block never halts: every step from every state goes on. -/
def Obligations.EveryStepGoesOn : Prop := ∀ s : State, ∃ t, step s = .next t

/-! ### Unit operations

An operation run alone, outside the BYTE step that invokes it, is the model's choice (log 7); what it writes is the spec's. -/

/-- R104: whatever `crc` was, the remainder starts from the constant; nothing else changes. -/
def Obligations.CrcInitIgnoresOldRemainder : Prop :=
  ∀ (s : State) (d : Byte),
    exec (.crcInit d) s = .next { s with regs := { s.regs with crc := crcStep 0xFFFFFFFF d } }

/-- R105. -/
def Obligations.CrcUpdStepsTheRemainder : Prop :=
  ∀ (s : State) (d : Byte),
    exec (.crcUpd d) s = .next { s with regs := { s.regs with
      crc := crcStep (if s.regs.phase = .type ∧ s.regs.cnt = 0 then 0xFFFFFFFF else s.regs.crc) d } }

/-- R106, R35: the line `ok` is 1 exactly when the values are equal and 0 exactly when they differ in any bit; no register is
written and no event is emitted. That the step then follows R158 or R159 is ByteIsItsUnitOperations. -/
def Obligations.CrcChkComparesAllBits : Prop :=
  ∀ (s : State) (d : Byte) (rx' : Word), rx' = s.regs.rx.extractLsb' 0 24 ++ d →
    ∃ ok : Bool, exec (.crcChk d) s = .next { s with chkOk := ok } ∧ (ok = true ↔ rx' = s.regs.crc ^^^ 0xFFFFFFFF) ∧
      (ok = false ↔ ∃ i : Nat, i < 32 ∧ rx'.getLsbD i ≠ (s.regs.crc ^^^ 0xFFFFFFFF).getLsbD i)

/-- R121, R136: the byte enters at the bottom of the register, the top byte falls out, nothing else changes. -/
def Obligations.ShiftsEnterAtTheBottom : Prop :=
  ∀ (s : State) (d : Byte),
    exec (.beShift .len d) s =
      .next { s with regs := { s.regs with len := (s.regs.len <<< 8) ||| d.setWidth 32 } } ∧
    exec (.beShift .rx d) s =
      .next { s with regs := { s.regs with rx := (s.regs.rx <<< 8) ||| d.setWidth 32 } } ∧
    exec (.tcShift d) s = .next { s with regs := { s.regs with typ := (s.regs.typ <<< 8) ||| d.setWidth 32 } }

/-- R137: the two operations drive `ev_f[3:0]` and `ev_f[4]` from the new type code and write nothing stored. -/
def Obligations.TcFlagsAndValidDriveEvF : Prop :=
  ∀ (s : State) (d : Byte) (T : TypeCode), T = TypeCode.ofWord (s.regs.typ.extractLsb' 0 24 ++ d) →
    exec (.tcFlags d) s = .next { s with ev := { s.ev with f := s.ev.f.extractLsb' 4 1 ++ flags4 T } } ∧
    exec (.tcValid d) s =
      .next { s with ev := { s.ev with f := BitVec.ofBool (tcValid T) ++ s.ev.f.extractLsb' 0 4 } }

/-- R122, and the same of TC.SHIFT (R136): four shifts leave the big-endian value of the four bytes, whatever was held. -/
def Obligations.FourShiftsLeaveBe32 : Prop :=
  ∀ (s : State) (b0 b1 b2 b3 : Byte),
    execAll [.beShift .len b0, .beShift .len b1, .beShift .len b2, .beShift .len b3] s =
      some { s with regs := { s.regs with len := be32 b0 b1 b2 b3 } } ∧
    execAll [.beShift .rx b0, .beShift .rx b1, .beShift .rx b2, .beShift .rx b3] s =
      some { s with regs := { s.regs with rx := be32 b0 b1 b2 b3 } } ∧
    execAll [.tcShift b0, .tcShift b1, .tcShift b2, .tcShift b3] s =
      some { s with regs := { s.regs with typ := TypeCode.pack ⟨b0, b1, b2, b3⟩ } }

/-- A BYTE writes to the data registers, and to the flag field of an HDR, exactly what the unit operations it invokes write;
they leave `phase`, `cnt`, `err` to the sequencer, and the line of CRC.CHK selects its rule (R35, R92, R106, R153 to R159).
That a BYTE which compares no checksum keeps that line (`t.chkOk = u.chkOk` outside phase CRC with cnt 3) is the model's
choice, log 7. -/
def Obligations.ByteIsItsUnitOperations : Prop :=
  ∀ (s : State) (d : Byte), s.regs.legal = true →
    ∃ t u, exec (.byte d) s = .next t ∧ execAll (decodeUnits s.regs.phase s.regs.cnt d) s = some u ∧
      t.regs.len = u.regs.len ∧ t.regs.typ = u.regs.typ ∧ t.regs.crc = u.regs.crc ∧ t.regs.rx = u.regs.rx ∧
      t.chkOk = u.chkOk ∧ u.regs.phase = s.regs.phase ∧ u.regs.cnt = s.regs.cnt ∧ u.regs.err = s.regs.err ∧
      (∀ e, t.event = some e → e.kind = .hdr → e.f = u.ev.f) ∧
      (s.regs.phase = .crc → s.regs.cnt = 3 →
        (u.chkOk = true → t.regs.phase = .len ∧ t.regs.cnt = 0 ∧ t.regs.err = .ok ∧
          t.event = some ⟨.eoc, u.regs.rx, 0, 0⟩) ∧
        (u.chkOk = false → t.regs.phase = .fail ∧ t.regs.cnt = 0 ∧ t.regs.err = .checksumMismatch ∧ t.event = none))

/-! ### Events

An event as an instruction of its own, presented and taken in one step, is the model's choice (log 5, log 8). -/

/-- An event on the event port is taken by the host, as it is, and no register changes (R84 to R88, R267). -/
def Obligations.EventIsTakenByTheHost : Prop :=
  ∀ (s : State) (a b : Word) (f : BitVec 5) (i : Instr) (k : EvKind),
    (i = .hdr a b f ∧ k = .hdr) ∨ (i = .pay a b f ∧ k = .pay) ∨ (i = .eoc a b f ∧ k = .eoc) ∨
      (i = .done a b f ∧ k = .done) →
    ∃ t, exec i s = .next t ∧ t.regs = s.regs ∧ t.event = none ∧ t.log = s.log ++ [⟨k, a, b, f⟩] ∧
      t.inputs = s.inputs ∧ t.cfg = s.cfg

/-! ### Wire records

A record handed over whole, in one step, is the model's choice (log 6); WireRecordIsItsByteCommands says it adds nothing. -/

/-- R71: the eight bytes of SIG at offset 0 lead to the first record boundary, with no event, whatever SIG is. -/
def Obligations.SignatureLeadsToBoundary : Prop :=
  ∀ s : State, s.regs.phase = .sig → s.regs.cnt = 0 → s.regs.err = .ok →
    ∃ t, exec .signature s = .next t ∧ t.regs = { s.regs with phase := .len, cnt := 0 } ∧ t.event = none ∧
      t.trace = s.trace ∧ t.inputs = s.inputs ∧ t.cfg = s.cfg

/-- A record whose checksum matches, at a record boundary: its group of events, and the next record boundary (R112, R153 to
R158, R175). -/
def Obligations.GoodRecordIsAccepted : Prop :=
  ∀ (s : State) (L : Word) (T : TypeCode) (P : List Byte) (C : Word), s.regs.atBoundary → P.length = L.toNat →
    C = crc32 (T.bytes ++ P) →
    ∃ t, exec (.chunk L T P C) s = .next t ∧
      t.regs = ⟨.len, 0, L, T.pack, crcRaw 0xFFFFFFFF (T.bytes ++ P), C, .ok⟩ ∧
      t.trace = s.trace ++ (hdrEvent L T :: payEvents 0 P ++ [eocEvent C]) ∧ t.inputs = s.inputs ∧ t.cfg = s.cfg

/-- A record whose checksum differs: its HDR and PAY events, no EOC, and the failure latched (R153 to R159, R233). -/
def Obligations.BadRecordIsRefused : Prop :=
  ∀ (s : State) (L : Word) (T : TypeCode) (P : List Byte) (C : Word), s.regs.atBoundary → P.length = L.toNat →
    C ≠ crc32 (T.bytes ++ P) →
    ∃ t, exec (.chunk L T P C) s = .next t ∧
      t.regs = ⟨.fail, 0, L, T.pack, crcRaw 0xFFFFFFFF (T.bytes ++ P), C, .checksumMismatch⟩ ∧
      t.trace = s.trace ++ (hdrEvent L T :: payEvents 0 P) ∧ t.inputs = s.inputs ∧ t.cfg = s.cfg

/-- Records after a failure are drained: no register and no event (R160, R238). -/
def Obligations.RecordsAfterFailureAreDrained : Prop :=
  ∀ (s : State) (L : Word) (T : TypeCode) (P : List Byte) (C : Word) (i : Instr), s.regs.phase = .fail →
    i = .signature ∨ i = .chunk L T P C →
    ∃ t, exec i s = .next t ∧ t.regs = s.regs ∧ t.trace = s.trace ∧ t.inputs = s.inputs ∧ t.cfg = s.cfg

/-- A wire record is its bytes, one BYTE command per cycle (R51, R54, R91): the machine reaches the same state. -/
def Obligations.WireRecordIsItsByteCommands : Prop :=
  ∀ (s t : State) (i : Instr) (bs : List Byte), encode s.cfg i = .wire bs → exec i s = .next t →
    Reaches bs.length (s.withInputs (bs.map byteCycle ++ s.inputs)) t

/-! ### Pure functions -/

/-- R101: the worked example, the table values, and the table form equal to the bitwise one. -/
def Obligations.CrcTableFormAgrees : Prop :=
  crcStep 0xFFFFFFFF 0x52 = 0xA89820AA ∧ crcTab 0 = 0x00000000 ∧ crcTab 1 = 0x77073096 ∧ crcTab 2 = 0xEE0E612C ∧
  crcTab 128 = 0xEDB88320 ∧ crcTab 255 = 0x2D02EF8D ∧ ∀ (c : Word) (b : Byte), crcStepTab c b = crcStep c b

/-- R100, R103, R111: check values, among them the one checksum the source prints. -/
def Obligations.CrcCheckValues : Prop :=
  crc32 [0x31, 0x32, 0x33, 0x34, 0x35, 0x36, 0x37, 0x38, 0x39] = 0xCBF43926 ∧ crc32 [] = 0 ∧
  crc32 [0x49, 0x45, 0x4E, 0x44] = 0xAE426082 ∧
  crc32 [0x52, 0x75, 0x53, 0x74, 0x54, 0x68, 0x69, 0x73, 0x20, 0x69, 0x73, 0x20, 0x77, 0x68, 0x65, 0x72, 0x65, 0x20,
    0x79, 0x6F, 0x75, 0x72, 0x20, 0x73, 0x65, 0x63, 0x72, 0x65, 0x74, 0x20, 0x6D, 0x65, 0x73, 0x73, 0x61, 0x67, 0x65,
    0x20, 0x77, 0x69, 0x6C, 0x6C, 0x20, 0x62, 0x65, 0x21] = 2882656334

/-- R109: a record damaged in one byte of its type code or payload, or anywhere in its checksum field, is refused with
ChecksumMismatch (a flipped bit is one such damage). -/
def Obligations.DamagedRecordIsRefused : Prop :=
  ∀ (s : State) (L : Word) (T T' : TypeCode) (P P' : List Byte) (C C' : Word) (pre post : List Byte) (x y : Byte),
    s.regs.atBoundary → P.length = L.toNat → C = crc32 (T.bytes ++ P) → P'.length = P.length →
    ((T' = T ∧ P' = P ∧ C' ≠ C) ∨
      (C' = C ∧ T.bytes ++ P = pre ++ x :: post ∧ T'.bytes ++ P' = pre ++ y :: post ∧ x ≠ y)) →
    ∃ t, exec (.chunk L T' P' C') s = .next t ∧ t.regs.phase = .fail ∧ t.regs.err = .checksumMismatch ∧
      t.trace = s.trace ++ (hdrEvent L T' :: payEvents 0 P')

/-- R131, R135: the classes of a byte, and the bit-5 relation of the letters. -/
def Obligations.LetterCaseIsBitFive : Prop :=
  ∀ b : Byte,
    (isUpper b = true ↔ 0x41 ≤ b.toNat ∧ b.toNat ≤ 0x5A) ∧ (isLower b = true ↔ 0x61 ≤ b.toNat ∧ b.toNat ≤ 0x7A) ∧
    isAlpha b = (isUpper b || isLower b) ∧
    (isAlpha b = true → (isUpper b = true ↔ b.getLsbD 5 = false) ∧ (isLower b = true ↔ b.getLsbD 5 = true) ∧
      isAlpha (b ^^^ 0x20) = true ∧ isUpper (b ^^^ 0x20) = isLower b) ∧
    (isAlpha b = false → isUpper b = false)

/-- R132, R134: each flag looks at its own byte; validity is four letters with byte 2 uppercase. -/
def Obligations.FlagsAndValidityOfTypeCode : Prop :=
  ∀ T : TypeCode,
    (flags4 T).getLsbD 0 = isUpper T.t0 ∧ (flags4 T).getLsbD 1 = isUpper T.t1 ∧
    (flags4 T).getLsbD 2 = isUpper T.t2 ∧ (flags4 T).getLsbD 3 = isUpper T.t3 ∧
    (tcValid T = true ↔ isAlpha T.t0 = true ∧ isAlpha T.t1 = true ∧ isAlpha T.t2 = true ∧ isAlpha T.t3 = true ∧
      isUpper T.t2 = true) ∧
    (tcValid T = true → (flags4 T).getLsbD 2 = true) ∧
    hdrFlags T = BitVec.ofBool (tcValid T) ++ flags4 T ∧ TypeCode.ofWord T.pack = T

/-! ### The invariant -/

/-- The invariant holds at reset (R33, R34). -/
def Obligations.ResetIsLegal : Prop := State.reset.Inv

/-- Every step keeps it: the registers stay among R34's states, and every event ever on the port is well formed. -/
def Obligations.StepKeepsInvariant : Prop := ∀ s t : State, s.Inv → step s = .next t → t.Inv

/-! ### Runs -/

/-- R171: for every buffer and every SIG, the result of the run over the buffer is that of the reference model. -/
def Obligations.RunAgreesWithReferenceModel : Prop :=
  ∀ (s : State) (buf : List Byte), s.startsRun buf → s.log = [] →
    ∃ t, Reaches (buf.length + 1) s t ∧ t.regs = Regs.s0 ∧ t.inputs = [] ∧
      result t.trace = some (parseContainer s.cfg buf)

/-- R173: the events of one run, in order. -/
def Obligations.RunEventsMatchGrammar : Prop :=
  ∀ (s : State) (buf : List Byte), s.startsRun buf → s.log = [] →
    ∃ t, Reaches (buf.length + 1) s t ∧ runShape none t.trace = true ∧
      ∀ e ∈ t.trace, e.kind = .done → e.a = 1 → t.trace = [e]

/-- R174: the events of a run depend on its buffer and SIG only, not on what came before or follows. -/
def Obligations.RunsAreIndependent : Prop :=
  ∀ (s₁ s₂ : State) (buf : List Byte) (rest₁ rest₂ : List Input), s₁.regs = Regs.s0 → s₂.regs = Regs.s0 →
    s₁.cfg = s₂.cfg → s₁.inputs = bufferCycles buf ++ rest₁ → s₂.inputs = bufferCycles buf ++ rest₂ →
    ∃ (E : List Event) (t₁ t₂ : State), Reaches (buf.length + 1) s₁ t₁ ∧ Reaches (buf.length + 1) s₂ t₂ ∧
      t₁.trace = s₁.trace ++ E ∧ t₂.trace = s₂.trace ++ E ∧ t₁.regs = Regs.s0 ∧ t₂.regs = Regs.s0 ∧
      t₁.inputs = rest₁ ∧ t₂.inputs = rest₂

/-- R260, R174: idle cycles between commands have no effect on registers or events. -/
def Obligations.IdleCyclesDoNotMatter : Prop :=
  ∀ s₁ s₂ : State, s₁.regs = s₂.regs → s₁.cfg = s₂.cfg → s₁.trace = s₂.trace → s₁.inputs.all Input.quiet = true →
    s₂.inputs = s₁.inputs.filter Input.isCommand →
    ∃ t₁ t₂ : State, Reaches s₁.inputs.length s₁ t₁ ∧ Reaches s₂.inputs.length s₂ t₂ ∧ t₁.regs = t₂.regs ∧
      t₁.trace = t₂.trace

/-- The run over a serialised container of sound chunks ends OK with every chunk's events in order (R112, R175, R202). -/
def Obligations.SerializedContainerRunsOk : Prop :=
  ∀ (s : State) (cs : List Chunk), (∀ c ∈ cs, c.sound = true) → s.startsRun (serContainer s.cfg cs) →
    ∃ t, Reaches ((serContainer s.cfg cs).length + 1) s t ∧ t.regs = Regs.s0 ∧
      t.trace = s.trace ++ recordsEvents cs ++ [⟨.done, 0, 0, 0⟩]

/-- In the run over a serialised container, at every number `n` of BYTE commands, the block stands at a record boundary
exactly when `n` is `8 + sum (12 + L_j)` over the first `k` records for some `k`; the last of these is the length of the
buffer (R175, R55). -/
def Obligations.RecordBoundariesInClosedForm : Prop :=
  ∀ (s : State) (cs : List Chunk) (n : Nat), (∀ c ∈ cs, c.sound = true) → s.startsRun (serContainer s.cfg cs) →
    n ≤ (serContainer s.cfg cs).length →
    (∃ t, Reaches n s t ∧ t.inputs = bufferCycles ((serContainer s.cfg cs).drop n) ∧
      (t.regs.atBoundary ↔ ∃ k, k ≤ cs.length ∧ n = 8 + ((cs.take k).map fun c => 12 + c.length.toNat).sum)) ∧
    (serContainer s.cfg cs).length = 8 + (cs.map fun c => 12 + c.length.toNat).sum

/-! ### The reference model -/

/-- R191: every chunk that a parse or `chunk_new` gives has its length and its checksum; so it is determined by its type
and data alone, and its data is shorter than 2^32. -/
def Obligations.EveryChunkIsSound : Prop :=
  (∀ (b r : List Byte) (c : Chunk), parseChunk b = .ok (c, r) → c.sound = true) ∧
  (∀ (cfg : Config) (buf : List Byte) (cs : List Chunk), parseContainer cfg buf = .ok cs → ∀ c ∈ cs, c.sound = true) ∧
  (∀ (T : TypeCode) (P : List Byte) (c : Chunk), chunkNew T P = some c → c.sound = true ∧ c.type = T ∧ c.data = P) ∧
  ∀ c c' : Chunk, c.sound = true → c'.sound = true → c.type = c'.type → c.data = c'.data →
    c = c' ∧ c.data.length < 2 ^ 32

/-- R203. -/
def Obligations.ChunkRoundTrip : Prop :=
  ∀ (T : TypeCode) (P r : List Byte), P.length < 2 ^ 32 →
    parseChunk (chunkBytes (BitVec.ofNat 32 P.length) T P (crc32 (T.bytes ++ P)) ++ r) =
      .ok (⟨BitVec.ofNat 32 P.length, T, P, crc32 (T.bytes ++ P)⟩, r)

/-- R204, both ways. -/
def Obligations.ContainerRoundTrip : Prop :=
  ∀ cfg : Config,
    (∀ cs : List Chunk, (∀ c ∈ cs, c.sound = true) → parseContainer cfg (serContainer cfg cs) = .ok cs) ∧
    ∀ (buf : List Byte) (cs : List Chunk), parseContainer cfg buf = .ok cs → serContainer cfg cs = buf

/-- R212 to R214: append then look up gives the chunk, or the earliest chunk of the same type; a removal that finds nothing,
and one that finds the first. -/
def Obligations.LookupAppendRemove : Prop :=
  ∀ (cs : List Chunk) (c : Chunk) (text : List Byte),
    (c.named text = true → chunkByType cs text = none → chunkByType (appendChunk cs c) text = some c) ∧
    (∀ c', chunkByType cs text = some c' → chunkByType (appendChunk cs c) text = some c' ∧ c'.type.bytes = text) ∧
    (∀ c', c.named text = true → chunkByType (appendChunk cs c) text = some c' → c'.type = c.type ∧
      ∃ pre post, appendChunk cs c = pre ++ c' :: post ∧ ∀ p ∈ pre, p.type ≠ c.type) ∧
    (removeChunk text cs = .error .notFound ↔ chunkByType cs text = none) ∧
    (∀ c' rest, removeChunk text cs = .ok (c', rest) →
      chunkByType cs text = some c' ∧ ∃ pre post, cs = pre ++ c' :: post ∧ rest = pre ++ post ∧
        ∀ p ∈ pre, p.named text = false)
end

