-- ==== Sys2Proof/Laws/Crc.lean ====
section
/-! SUPPORT. Laws of the checksum function (spec/40_crc32.md R101, R102, R109): the fold over a concatenation, and that
no step loses information. -/

namespace Sys2Proof

theorem xor_cancel {n : Nat} {x y p : BitVec n} (h : x ^^^ p = y ^^^ p) : x = y := by
  have := congrArg (· ^^^ p) h
  simpa [BitVec.xor_assoc] using this

/-- R102. -/
theorem crcRaw_append (c : Word) (s t : List Byte) : crcRaw c (s ++ t) = crcRaw (crcRaw c s) t := by
  induction s generalizing c with
  | nil => rfl
  | cons b rest ih => exact ih _

/-- The polynomial's bit 31 tells which branch a single-bit step took. -/
theorem crcBit_top (c : Word) : (crcBit c).getLsbD 31 = c.getLsbD 0 := by
  unfold crcBit
  split <;> rename_i h
  · simp [crcPoly, h]
  · simp at h
    simp [h]

/-- A single-bit step is injective: R109's reason that a remainder difference never vanishes. -/
theorem crcBit_injective : Function.Injective crcBit := by
  intro x y h
  have h0 : x.getLsbD 0 = y.getLsbD 0 := by rw [← crcBit_top, ← crcBit_top, h]
  have hs : x >>> 1 = y >>> 1 := by
    unfold crcBit at h
    rw [h0] at h
    split at h
    · exact xor_cancel h
    · exact h
  apply BitVec.eq_of_getLsbD_eq
  intro i hi
  cases i with
  | zero => exact h0
  | succ n =>
    have := congrArg (fun v => v.getLsbD n) hs
    simpa [BitVec.getLsbD_ushiftRight, Nat.add_comm] using this

theorem crcBits_injective (n : Nat) : Function.Injective (crcBits n) := by
  induction n with
  | zero => exact fun _ _ h => h
  | succ n ih => exact fun _ _ h => crcBit_injective (ih h)

/-- `crc_step` is injective in the remainder. -/
theorem crcStep_injective (b : Byte) : Function.Injective (fun c => crcStep c b) := fun _ _ h =>
  xor_cancel (crcBits_injective 8 h)

/-- `crc_step` is injective in the byte. -/
theorem crcStep_byte_injective (c : Word) : Function.Injective (crcStep c) := fun x y h => by
  have h' : x.setWidth 32 = y.setWidth 32 := by
    have := crcBits_injective 8 h
    rw [BitVec.xor_comm c, BitVec.xor_comm c] at this
    exact xor_cancel this
  have := congrArg (BitVec.setWidth 8) h'
  simpa using this

/-- A remainder difference is kept by any bytes that follow. -/
theorem crcRaw_injective (s : List Byte) : Function.Injective (fun c => crcRaw c s) := by
  induction s with
  | nil => exact fun _ _ h => h
  | cons b rest ih => exact fun _ _ h => crcStep_injective b (ih h)

end Sys2Proof
end

