-- ==== Sys2Proof/Laws/Decode.lean ====
section
/-! SUPPORT. The small laws of the decoder: the two command words, the codes, the bytes of a record. -/

namespace Sys2Proof

/-- R81: the word of `BYTE d` decodes to it. -/
@[simp] theorem decodeCmd_byteWord (d : Byte) : decodeCmd (byteWord d) = .byte d := by
  have h8 : (byteWord d).getLsbD 8 = false := by
    rw [byteWord, BitVec.getLsbD_append]
    rfl
  have hd : (byteWord d).extractLsb' 0 8 = d := by
    apply BitVec.eq_of_getLsbD_eq
    intro i hi
    rw [BitVec.getLsbD_extractLsb', byteWord, BitVec.getLsbD_append]
    simp [hi]
  rw [decodeCmd, h8, hd]
  rfl

/-- R82, D23: the word the host should send for `END` decodes to it. -/
@[simp] theorem decodeCmd_endWord : decodeCmd endWord = .endBuf := by decide

@[simp] theorem EvKind.ofCode_code (k : EvKind) : EvKind.ofCode k.code = k := by cases k <;> rfl

@[simp] theorem EvKind.code_ofCode (c : BitVec 2) : (EvKind.ofCode c).code = c := by
  revert c
  decide

@[simp] theorem Status.ofCode_code (st : Status) : Status.ofCode st.code = st := by cases st <;> rfl

/-- The instruction of an event is of the event port's format. -/
theorem Event.toInstr_format (e : Event) : e.toInstr.format = .evt := by
  unfold Event.toInstr
  cases e.kind <;> rfl

/-- What a decoded wire record is: the signature, or a record with as many payload bytes as it declares (R71, R72). -/
theorem decodeWire_ok {cfg : Config} {p : Phase} {cnt : Word} {bs : List Byte} {i : Instr}
    (h : decodeWire cfg p cnt bs = .ok i) :
    (p = .sig ∧ cnt = 0 ∧ i = .signature ∧ bs = cfg.sig.toList) ∨
    (p = .len ∧ cnt = 0 ∧ decodeChunk bs = .ok i) := by
  unfold decodeWire at h
  cases p <;> simp only [reduceCtorEq] at h
  · split at h
    · rename_i hc
      split at h
      · rename_i hb
        simp only [Except.ok.injEq] at h
        exact .inl ⟨rfl, hc, h.symm, hb⟩
      · simp at h
    · simp at h
  · split at h
    · exact .inr ⟨rfl, ‹_›, h⟩
    · simp at h

end Sys2Proof
end

