-- ==== Sys2Proof/Laws/State.lean ====
section
/-! SUPPORT. The small lemmas of the state: one per field and update, and what the port operations leave on each field. -/

namespace Sys2Proof.Machine

variable (s : State) (r : Regs) (e : Option Event)

/-! ### `commit` -/

@[simp] theorem State.commit_regs : (s.commit r e).regs = r := rfl
@[simp] theorem State.commit_log : (s.commit r e).log = s.trace := rfl
@[simp] theorem State.commit_inputs : (s.commit r e).inputs = s.inputs := rfl
@[simp] theorem State.commit_cfg : (s.commit r e).cfg = s.cfg := rfl
@[simp] theorem State.commit_event : (s.commit r e).event = e := by cases e <;> rfl
@[simp] theorem State.commit_trace : (s.commit r e).trace = s.trace ++ e.toList := by
  simp [State.trace]

/-! ### What the host will present touches nothing else -/

variable (l m : List Input)

@[simp] theorem State.withInputs_regs : (s.withInputs l).regs = s.regs := rfl
@[simp] theorem State.withInputs_evValid : (s.withInputs l).evValid = s.evValid := rfl
@[simp] theorem State.withInputs_ev : (s.withInputs l).ev = s.ev := rfl
@[simp] theorem State.withInputs_tick : (s.withInputs l).tick = s.tick := rfl
@[simp] theorem State.withInputs_cfg : (s.withInputs l).cfg = s.cfg := rfl
@[simp] theorem State.withInputs_inputs : (s.withInputs l).inputs = l := rfl
@[simp] theorem State.withInputs_log : (s.withInputs l).log = s.log := rfl
@[simp] theorem State.withInputs_event : (s.withInputs l).event = s.event := rfl
@[simp] theorem State.withInputs_trace : (s.withInputs l).trace = s.trace := rfl
@[simp] theorem State.withInputs_twice : (s.withInputs l).withInputs m = s.withInputs m := rfl
@[simp] theorem State.withInputs_same : s.withInputs s.inputs = s := rfl
@[simp] theorem State.commit_withInputs : (s.withInputs l).commit r e = (s.commit r e).withInputs l := rfl
@[simp] theorem State.idle_withInputs : (s.withInputs l).idle = s.idle.withInputs l := rfl
@[simp] theorem State.acceptByte_withInputs (d : Byte) :
    (s.withInputs l).acceptByte d = (s.acceptByte d).withInputs l := rfl
@[simp] theorem State.acceptEnd_withInputs : (s.withInputs l).acceptEnd = s.acceptEnd.withInputs l := rfl

/-! ### The comparator's line touches nothing else -/

variable (c : Byte)

@[simp] theorem State.driveChk_regs : (s.driveChk c).regs = s.regs := rfl
@[simp] theorem State.driveChk_event : (s.driveChk c).event = s.event := rfl
@[simp] theorem State.driveChk_log : (s.driveChk c).log = s.log := rfl
@[simp] theorem State.driveChk_trace : (s.driveChk c).trace = s.trace := rfl
@[simp] theorem State.driveChk_inputs : (s.driveChk c).inputs = s.inputs := rfl
@[simp] theorem State.driveChk_cfg : (s.driveChk c).cfg = s.cfg := rfl
@[simp] theorem State.commit_chkOk : (s.commit r e).chkOk = s.chkOk := rfl
@[simp] theorem State.withInputs_chkOk : (s.withInputs l).chkOk = s.chkOk := rfl
@[simp] theorem State.crcChk_regs : (s.crcChk c).regs = s.regs := rfl
@[simp] theorem State.crcChk_event : (s.crcChk c).event = s.event := rfl
@[simp] theorem State.crcChk_trace : (s.crcChk c).trace = s.trace := rfl
@[simp] theorem State.crcChk_chkOk : (s.crcChk c).chkOk = s.regs.crcOk c := rfl

/-! ### The steps of the two commands -/

@[simp] theorem State.acceptByte_chkOk (d : Byte) : (s.acceptByte d).chkOk =
    if s.regs.effPhase = .crc ∧ s.regs.cnt = 3 then s.regs.crcOk d else s.chkOk := rfl
@[simp] theorem State.acceptEnd_chkOk : s.acceptEnd.chkOk = s.chkOk := rfl

@[simp] theorem State.acceptByte_regs (d : Byte) : (s.acceptByte d).regs = (byteStep s.cfg s.regs d).1 := rfl
@[simp] theorem State.acceptByte_event (d : Byte) : (s.acceptByte d).event = (byteStep s.cfg s.regs d).2 := by
  simp [State.acceptByte]
@[simp] theorem State.acceptByte_log (d : Byte) : (s.acceptByte d).log = s.trace := rfl
@[simp] theorem State.acceptByte_trace (d : Byte) :
    (s.acceptByte d).trace = s.trace ++ (byteStep s.cfg s.regs d).2.toList := by simp [State.acceptByte]
@[simp] theorem State.acceptByte_inputs (d : Byte) : (s.acceptByte d).inputs = s.inputs := rfl
@[simp] theorem State.acceptByte_cfg (d : Byte) : (s.acceptByte d).cfg = s.cfg := rfl
@[simp] theorem State.acceptEnd_regs : s.acceptEnd.regs = Regs.s0 := rfl
@[simp] theorem State.acceptEnd_event : s.acceptEnd.event = some (doneEvent (endStatus s.regs)) := rfl
@[simp] theorem State.acceptEnd_log : s.acceptEnd.log = s.trace := rfl
@[simp] theorem State.acceptEnd_trace : s.acceptEnd.trace = s.trace ++ [doneEvent (endStatus s.regs)] := rfl
@[simp] theorem State.acceptEnd_inputs : s.acceptEnd.inputs = s.inputs := rfl
@[simp] theorem State.acceptEnd_cfg : s.acceptEnd.cfg = s.cfg := rfl

/-! ### Idle, reset, present, expand -/

@[simp] theorem State.idle_regs : s.idle.regs = s.regs := rfl
@[simp] theorem State.idle_event : s.idle.event = none := rfl
@[simp] theorem State.idle_log : s.idle.log = s.trace := rfl
@[simp] theorem State.idle_inputs : s.idle.inputs = s.inputs := rfl
@[simp] theorem State.idle_cfg : s.idle.cfg = s.cfg := rfl
@[simp] theorem State.idle_trace : s.idle.trace = s.trace := by simp [State.idle]

@[simp] theorem State.resetCycle_regs : s.resetCycle.regs = Regs.s0 := rfl
@[simp] theorem State.resetCycle_event : s.resetCycle.event = none := rfl
@[simp] theorem State.resetCycle_inputs : s.resetCycle.inputs = s.inputs := rfl
@[simp] theorem State.resetCycle_cfg : s.resetCycle.cfg = s.cfg := rfl
@[simp] theorem State.resetCycle_trace : s.resetCycle.trace = s.trace := by simp [State.resetCycle]

variable (v : Event)

@[simp] theorem State.present_regs : (s.present v).regs = s.regs := rfl
@[simp] theorem State.present_event : (s.present v).event = none := rfl
@[simp] theorem State.present_log : (s.present v).log = s.log ++ [v] := rfl
@[simp] theorem State.present_inputs : (s.present v).inputs = s.inputs := rfl
@[simp] theorem State.present_cfg : (s.present v).cfg = s.cfg := rfl

/-- Presenting the event that is on the port already is the idle cycle. -/
theorem State.present_of_event {s : State} {v : Event} (h : s.event = some v) : s.present v = s.idle := by
  cases hv : s.evValid <;> simp [State.event, hv] at h
  subst h
  simp only [State.present, State.idle, State.commit, State.trace, State.event, hv]

@[simp] theorem State.expand_regs (bs : List Byte) : (s.expand bs).regs = s.regs := rfl
@[simp] theorem State.expand_trace (bs : List Byte) : (s.expand bs).trace = s.trace := rfl
@[simp] theorem State.expand_cfg (bs : List Byte) : (s.expand bs).cfg = s.cfg := rfl

end Sys2Proof.Machine
end

