-- ==== Sys2Proof/Laws/Ops.lean ====
section
/-! SUPPORT. One lemma per shared operation that says everything it can do, and the laws of feeding bytes. -/

namespace Sys2Proof.Machine

/-! ### Operands -/

/-- Bit by bit, what `BE.SHIFT` and `TC.SHIFT` write (R121). -/
theorem getLsbD_shiftIn (r : Word) (d : Byte) (i : Nat) :
    (shiftIn r d).getLsbD i = if i < 8 then d.getLsbD i else (decide (i < 32) && r.getLsbD (i - 8)) := by
  unfold shiftIn
  simp only [BitVec.getLsbD_append, BitVec.getLsbD_extractLsb', Nat.zero_add]
  split
  · rfl
  · congr 1
    exact decide_eq_decide.mpr (by omega)

/-- Bit by bit, the value of four bytes (R120). -/
theorem getLsbD_be32 (b0 b1 b2 b3 : Byte) (i : Nat) :
    (be32 b0 b1 b2 b3).getLsbD i =
      if i < 8 then b3.getLsbD i else if i < 16 then b2.getLsbD (i - 8)
      else if i < 24 then b1.getLsbD (i - 16) else b0.getLsbD (i - 24) := by
  unfold be32
  simp only [BitVec.getLsbD_append, Nat.sub_sub]
  split
  · rfl
  · simp only [show (i - 8 < 8) = (i < 16) from propext (by omega), show (i - (8 + 8) < 8) = (i < 24) from propext (by omega)]

/-- R121 in its shift form. -/
theorem shiftIn_eq_shift (r : Word) (d : Byte) : shiftIn r d = (r <<< 8) ||| d.setWidth 32 := by
  apply BitVec.eq_of_getLsbD_eq
  intro i hi
  rw [getLsbD_shiftIn]
  simp only [BitVec.getLsbD_or, BitVec.getLsbD_shiftLeft, BitVec.getLsbD_setWidth, hi, decide_true, Bool.true_and]
  split
  · simp [*]
  · rw [BitVec.getLsbD_of_ge d i (by omega)]
    simp [*]

/-- R122: four shifts leave the big-endian value, whatever was held. -/
theorem shiftIn_four (r : Word) (b0 b1 b2 b3 : Byte) :
    shiftIn (shiftIn (shiftIn (shiftIn r b0) b1) b2) b3 = be32 b0 b1 b2 b3 := by
  apply BitVec.eq_of_getLsbD_eq
  intro i hi
  simp only [getLsbD_shiftIn, getLsbD_be32, Nat.sub_sub, Nat.reduceAdd, show (i - 8 < 8) = (i < 16) from propext (by omega),
    show (i - 16 < 8) = (i < 24) from propext (by omega), show i - 24 < 8 by omega, show i < 32 from hi,
    show i - 8 < 32 by omega, show i - 16 < 32 by omega, decide_true, Bool.true_and, if_true]

/-- The four bytes of a value, put together again (R120). -/
theorem be32_of_bytes (v : Word) :
    be32 (v.extractLsb' 24 8) (v.extractLsb' 16 8) (v.extractLsb' 8 8) (v.extractLsb' 0 8) = v := by
  apply BitVec.eq_of_getLsbD_eq
  intro i hi
  simp only [getLsbD_be32, BitVec.getLsbD_extractLsb']
  split
  · simp [*]
  · split
    · simp [show i - 8 < 8 by omega, show 8 + (i - 8) = i by omega]
    · split
      · simp [show i - 16 < 8 by omega, show 16 + (i - 16) = i by omega]
      · simp [show i - 24 < 8 by omega, show 24 + (i - 24) = i by omega]

/-- The bytes of the value of four bytes (R120). -/
theorem bytes_of_be32 (b0 b1 b2 b3 : Byte) :
    (be32 b0 b1 b2 b3).extractLsb' 24 8 = b0 ∧ (be32 b0 b1 b2 b3).extractLsb' 16 8 = b1 ∧
      (be32 b0 b1 b2 b3).extractLsb' 8 8 = b2 ∧ (be32 b0 b1 b2 b3).extractLsb' 0 8 = b3 := by
  refine ⟨?_, ?_, ?_, ?_⟩ <;>
    (apply BitVec.eq_of_getLsbD_eq; intro i hi; simp only [BitVec.getLsbD_extractLsb', getLsbD_be32]) <;>
    simp only [hi, decide_true, Bool.true_and]
  · simp only [show ¬ 24 + i < 8 by omega, show ¬ 24 + i < 16 by omega, show ¬ 24 + i < 24 by omega, if_false,
      Nat.add_sub_cancel_left]
  · simp only [show ¬ 16 + i < 8 by omega, show ¬ 16 + i < 16 by omega, show 16 + i < 24 by omega, if_false, if_true,
      Nat.add_sub_cancel_left]
  · simp only [show ¬ 8 + i < 8 by omega, show 8 + i < 16 by omega, if_false, if_true, Nat.add_sub_cancel_left]
  · simp only [Nat.zero_add, hi, if_true]

/-- A type code is read back from its packing (R24, R137). -/
@[simp] theorem ofWord_pack (T : TypeCode) : TypeCode.ofWord T.pack = T := by
  obtain ⟨h0, h1, h2, h3⟩ := bytes_of_be32 T.t0 T.t1 T.t2 T.t3
  simp only [TypeCode.ofWord, TypeCode.pack, h0, h1, h2, h3]

/-- A packing is read back from its type code. -/
@[simp] theorem pack_ofWord (v : Word) : (TypeCode.ofWord v).pack = v := be32_of_bytes v

/-! ### The phase that selects a rule -/

theorem effPhase_of_legal {r : Regs} (h : r.legal = true) : r.effPhase = r.phase := by simp [Regs.effPhase, h]

theorem effPhase_of_illegal {r : Regs} (h : r.legal = false) : r.effPhase = .fail := by simp [Regs.effPhase, h]

/-- In a phase other than `FAIL` no failure is latched (R34). -/
theorem err_of_legal {r : Regs} (h : r.legal = true) (hp : r.phase ≠ .fail) : r.err = .ok := by
  unfold Regs.legal at h
  cases hph : r.phase <;> simp_all

/-- What selects a rule other than R160: a legal state of that phase. -/
theorem legal_of_effPhase {r : Regs} {p : Phase} (h : r.effPhase = p) (hp : p ≠ .fail) :
    r.legal = true ∧ r.phase = p := by
  unfold Regs.effPhase at h
  split at h
  · exact ⟨‹_›, h⟩
  · exact absurd h.symm hp

/-- What `CRC.CHK` compares (R106). -/
theorem crcOk_iff {r : Regs} {d : Byte} : r.crcOk d = true ↔ shiftIn r.rx d = r.crc ^^^ crcOnes := decide_eq_true_iff

/-! ### The step of `BYTE`: everything it can do, and that it stays among R34's states -/

/-- R150's table for `BYTE`, one case per rule: the condition, the registers after, and the event. -/
inductive ByteRule (cfg : Config) (r : Regs) (d : Byte) : Regs × Option Event → Prop
  | r151last (hp : r.effPhase = .sig) (hd : d = cfg.sigByte r.cnt) (hc : r.cnt = 7) :
      ByteRule cfg r d (r.setPc .len 0, none)
  | r151 (hp : r.effPhase = .sig) (hd : d = cfg.sigByte r.cnt) (hc : r.cnt ≠ 7) :
      ByteRule cfg r d (r.setPc .sig (r.cnt + 1), none)
  | r152 (hp : r.effPhase = .sig) (hd : d ≠ cfg.sigByte r.cnt) : ByteRule cfg r d (r.raise .badSignature, none)
  | r153last (hp : r.effPhase = .len) (hc : r.cnt = 3) : ByteRule cfg r d ((r.beShift .len d).setPc .type 0, none)
  | r153 (hp : r.effPhase = .len) (hc : r.cnt ≠ 3) :
      ByteRule cfg r d ((r.beShift .len d).setPc .len (r.cnt + 1), none)
  | r154 (hp : r.effPhase = .type) (hc : r.cnt ≠ 3) :
      ByteRule cfg r d (((r.crcUpd d).tcShift d).setPc .type (r.cnt + 1), none)
  | r155empty (hp : r.effPhase = .type) (hc : r.cnt = 3) (hl : r.len = 0) :
      ByteRule cfg r d (((r.crcUpd d).tcShift d).setPc .crc 0,
        some ⟨.hdr, r.len, shiftIn r.typ d, hdrFlags (TypeCode.ofWord (shiftIn r.typ d))⟩)
  | r155 (hp : r.effPhase = .type) (hc : r.cnt = 3) (hl : r.len ≠ 0) :
      ByteRule cfg r d (((r.crcUpd d).tcShift d).setPc .data 0,
        some ⟨.hdr, r.len, shiftIn r.typ d, hdrFlags (TypeCode.ofWord (shiftIn r.typ d))⟩)
  | r156last (hp : r.effPhase = .data) (hl : r.cnt + 1 = r.len) :
      ByteRule cfg r d ((r.crcUpd d).setPc .crc 0, some ⟨.pay, r.cnt, d.setWidth 32, 0⟩)
  | r156 (hp : r.effPhase = .data) (hl : r.cnt + 1 ≠ r.len) :
      ByteRule cfg r d ((r.crcUpd d).setPc .data (r.cnt + 1), some ⟨.pay, r.cnt, d.setWidth 32, 0⟩)
  | r157 (hp : r.effPhase = .crc) (hc : r.cnt ≠ 3) :
      ByteRule cfg r d ((r.beShift .rx d).setPc .crc (r.cnt + 1), none)
  | r158 (hp : r.effPhase = .crc) (hc : r.cnt = 3) (hk : shiftIn r.rx d = r.crc ^^^ crcOnes) :
      ByteRule cfg r d ((r.setPc .len 0).beShift .rx d, some ⟨.eoc, shiftIn r.rx d, 0, 0⟩)
  | r159 (hp : r.effPhase = .crc) (hc : r.cnt = 3) (hk : shiftIn r.rx d ≠ r.crc ^^^ crcOnes) :
      ByteRule cfg r d ((r.raise .checksumMismatch).beShift .rx d, none)
  | r160 (hp : r.effPhase = .fail) : ByteRule cfg r d (r, none)

/-- The step of `BYTE` follows one rule of the table. -/
theorem byteStep_rule (cfg : Config) (r : Regs) (d : Byte) : ByteRule cfg r d (byteStep cfg r d) := by
  unfold byteStep
  split
  · rename_i hp
    split
    · rename_i hd
      split
      · exact .r151last hp hd ‹_›
      · exact .r151 hp hd ‹_›
    · exact .r152 hp ‹_›
  · rename_i hp
    dsimp only
    split
    · exact .r153last hp ‹_›
    · exact .r153 hp ‹_›
  · rename_i hp
    dsimp only
    split
    · rename_i hc
      split
      · exact .r155empty hp hc ‹_›
      · exact .r155 hp hc ‹_›
    · exact .r154 hp ‹_›
  · rename_i hp
    dsimp only
    split
    · exact .r156last hp ‹_›
    · exact .r156 hp ‹_›
  · rename_i hp
    dsimp only
    split
    · rename_i hc
      split
      · exact .r158 hp hc (crcOk_iff.mp ‹_›)
      · exact .r159 hp hc (fun hk => ‹¬ _› (crcOk_iff.mpr hk))
    · exact .r157 hp ‹_›
  · exact .r160 ‹_›

/-! ### R34: what `legal` says in each phase, and that the two commands keep it -/

theorem legal_sig {r : Regs} (hp : r.phase = .sig) : r.legal = true ↔ r.cnt.toNat ≤ 7 ∧ r.err = .ok := by
  simp [Regs.legal, hp, BitVec.le_def]

theorem legal_field {r : Regs} (hp : r.phase = .len ∨ r.phase = .type ∨ r.phase = .crc) :
    r.legal = true ↔ r.cnt.toNat ≤ 3 ∧ r.err = .ok := by
  rcases hp with hp | hp | hp <;> simp [Regs.legal, hp, BitVec.le_def]

theorem legal_data {r : Regs} (hp : r.phase = .data) :
    r.legal = true ↔ r.cnt.toNat < r.len.toNat ∧ r.err = .ok := by
  simp [Regs.legal, hp, BitVec.lt_def]

/-- One more byte of a field of `n + 1` bytes that is not the last one. -/
theorem cnt_succ_le {c : Word} {n : Nat} (hn : n < 2 ^ 32) (h : c.toNat ≤ n) (hne : c ≠ BitVec.ofNat 32 n) :
    (c + 1).toNat ≤ n := by
  have : c.toNat ≠ n := fun hc => hne (by apply BitVec.eq_of_toNat_eq; simp [hc]; omega)
  rw [BitVec.toNat_add]
  simp
  omega

/-- `BYTE` keeps R34's states. -/
theorem byteStep_legal {cfg : Config} {r : Regs} (d : Byte) (h : r.legal = true) :
    (byteStep cfg r d).1.legal = true := by
  have rule := byteStep_rule cfg r d
  have he : ∀ {p : Phase}, r.effPhase = p → r.phase = p := fun hp => by rw [← effPhase_of_legal h]; exact hp
  revert rule
  generalize byteStep cfg r d = out
  intro rule
  cases rule with
  | r151last hp hd hc =>
    have := (legal_sig (he hp)).mp h
    exact (legal_field (.inl rfl)).mpr ⟨by simp [Regs.setPc], this.2⟩
  | r151 hp hd hc =>
    have := (legal_sig (he hp)).mp h
    exact (legal_sig rfl).mpr ⟨cnt_succ_le (by decide) this.1 hc, this.2⟩
  | r152 => rfl
  | r153last hp hc =>
    have := (legal_field (.inl (he hp))).mp h
    exact (legal_field (.inr (.inl rfl))).mpr ⟨by simp [Regs.setPc], this.2⟩
  | r153 hp hc =>
    have := (legal_field (.inl (he hp))).mp h
    exact (legal_field (.inl rfl)).mpr ⟨cnt_succ_le (by decide) this.1 hc, this.2⟩
  | r154 hp hc =>
    have := (legal_field (.inr (.inl (he hp)))).mp h
    exact (legal_field (.inr (.inl rfl))).mpr ⟨cnt_succ_le (by decide) this.1 hc, this.2⟩
  | r155empty hp hc hl =>
    have := (legal_field (.inr (.inl (he hp)))).mp h
    exact (legal_field (.inr (.inr rfl))).mpr ⟨by simp [Regs.setPc], this.2⟩
  | r155 hp hc hl =>
    have := (legal_field (.inr (.inl (he hp)))).mp h
    refine (legal_data rfl).mpr ⟨?_, this.2⟩
    have : r.len.toNat ≠ 0 := fun h0 => hl (by apply BitVec.eq_of_toNat_eq; simpa using h0)
    simp [Regs.setPc, Regs.tcShift, Regs.crcUpd]
    omega
  | r156last hp hl =>
    have := (legal_data (he hp)).mp h
    exact (legal_field (.inr (.inr rfl))).mpr ⟨by simp [Regs.setPc], this.2⟩
  | r156 hp hl =>
    have hd := (legal_data (he hp)).mp h
    refine (legal_data rfl).mpr ⟨?_, hd.2⟩
    have hne : (r.cnt + 1).toNat ≠ r.len.toNat := fun h0 => hl (BitVec.eq_of_toNat_eq h0)
    have hlt := r.len.isLt
    have h1 := hd.1
    rw [BitVec.toNat_add] at hne
    simp [Regs.setPc, Regs.crcUpd] at hne ⊢
    omega
  | r157 hp hc =>
    have := (legal_field (.inr (.inr (he hp)))).mp h
    exact (legal_field (.inr (.inr rfl))).mpr ⟨cnt_succ_le (by decide) this.1 hc, this.2⟩
  | r158 hp hc hk =>
    have := (legal_field (.inr (.inr (he hp)))).mp h
    exact (legal_field (.inl rfl)).mpr ⟨by simp [Regs.setPc, Regs.beShift], this.2⟩
  | r159 => rfl
  | r160 hp => exact h

/-- Every event of `BYTE` is well formed (R85 to R87). -/
theorem byteStep_event_wellFormed {cfg : Config} {r : Regs} {d : Byte} {e : Event}
    (h : (byteStep cfg r d).2 = some e) : e.wellFormed = true := by
  have rule := byteStep_rule cfg r d
  revert rule h
  generalize byteStep cfg r d = out
  intro h rule
  have hb : (d.setWidth 32 : Word).toNat < 256 := by
    have := d.isLt
    simp
    omega
  cases rule <;> simp only [reduceCtorEq, Option.some.injEq] at h
  all_goals
    subst h
    simp only [Event.wellFormed, hb, decide_true, Bool.and_self]

/-- The event of `END` is well formed (R88). -/
theorem doneEvent_wellFormed (st : Status) : (doneEvent st).wellFormed = true := by cases st <;> decide

/-! ### Feeding bytes -/

theorem State.feed_append (s : State) (xs ys : List Byte) : s.feed (xs ++ ys) = (s.feed xs).feed ys := by
  induction xs generalizing s with
  | nil => rfl
  | cons d rest ih => exact ih _

@[simp] theorem State.feed_inputs (s : State) (bs : List Byte) : (s.feed bs).inputs = s.inputs := by
  induction bs generalizing s with
  | nil => rfl
  | cons d rest ih => exact ih _

@[simp] theorem State.feed_cfg (s : State) (bs : List Byte) : (s.feed bs).cfg = s.cfg := by
  induction bs generalizing s with
  | nil => rfl
  | cons d rest ih => exact ih _

/-- Feeding does not look at what the host will present next. -/
@[simp] theorem State.feed_withInputs (s : State) (bs : List Byte) (l : List Input) :
    (s.withInputs l).feed bs = (s.feed bs).withInputs l := by
  induction bs generalizing s with
  | nil => rfl
  | cons d rest ih => exact ih (s.acceptByte d)

/-- The registers and events of a run of bytes, without the port: R9's `Step`, folded. -/
def feedRegs (cfg : Config) (r : Regs) : List Byte → Regs × List Event
  | [] => (r, [])
  | d :: rest =>
    let q := feedRegs cfg (byteStep cfg r d).1 rest
    (q.1, (byteStep cfg r d).2.toList ++ q.2)

/-- Feeding is that fold: what a prover needs to know of a run of bytes. -/
theorem State.feed_spec (s : State) (bs : List Byte) :
    (s.feed bs).regs = (feedRegs s.cfg s.regs bs).1 ∧ (s.feed bs).trace = s.trace ++ (feedRegs s.cfg s.regs bs).2 := by
  induction bs generalizing s with
  | nil => exact ⟨rfl, (List.append_nil _).symm⟩
  | cons d rest ih =>
    have h := ih (s.acceptByte d)
    refine ⟨h.1, h.2.trans ?_⟩
    simp [State.acceptByte, feedRegs, List.append_assoc]

/-- When bytes gave no event, none is presented after them. -/
theorem State.feed_event_none (s : State) (bs : List Byte) (hb : bs ≠ []) (h : (feedRegs s.cfg s.regs bs).2 = []) :
    (s.feed bs).event = none := by
  induction bs generalizing s with
  | nil => exact absurd rfl hb
  | cons d rest ih =>
    simp only [feedRegs, List.append_eq_nil_iff, Option.toList_eq_nil_iff] at h
    rcases rest with _ | ⟨d', rest⟩
    · simpa [State.feed] using h.1
    · exact ih (s.acceptByte d) (by simp) h.2

theorem feedRegs_append (cfg : Config) (r : Regs) (xs ys : List Byte) :
    feedRegs cfg r (xs ++ ys) =
      ((feedRegs cfg (feedRegs cfg r xs).1 ys).1, (feedRegs cfg r xs).2 ++ (feedRegs cfg (feedRegs cfg r xs).1 ys).2) := by
  induction xs generalizing r with
  | nil => rfl
  | cons d rest ih => simp [feedRegs, ih, List.append_assoc]

/-- Feeding keeps R34's states. -/
theorem feedRegs_legal {cfg : Config} {r : Regs} (bs : List Byte) (h : r.legal = true) :
    (feedRegs cfg r bs).1.legal = true := by
  induction bs generalizing r with
  | nil => exact h
  | cons d rest ih => exact ih (byteStep_legal d h)

/-- Bytes after a failure are drained (R160). -/
theorem feedRegs_fail {cfg : Config} {r : Regs} (bs : List Byte) (h : r.phase = .fail) : feedRegs cfg r bs = (r, []) := by
  have he : r.effPhase = .fail := by unfold Regs.effPhase; split <;> simp [h]
  induction bs with
  | nil => rfl
  | cons d rest ih => simp [feedRegs, byteStep, he, ih]

end Sys2Proof.Machine
end

