-- ==== Sys2Proof/Laws/PerInstr.lean ====
section
/-! SUPPORT. One law per instruction: the port its words travel on is the one of its opcode-table group (R92), and a wire
record has the width R71 and R72 give it. -/

namespace Sys2Proof.Laws

/-- The words of `i` are a command word for a CMD or a UNIT row, an event word for an EVT row, and for a WIRE row as many
bytes as the row's format has (8, or 12 and the payload). -/
def EncodedFormat.Statement (i : Instr) : Prop :=
  ∀ cfg : Config,
    match encode cfg i with
    | .cmd _ => i.format = .cmd ∨ i.format = .unit
    | .evt _ => i.format = .evt
    | .wire bs =>
      match i with
      | .signature => bs.length = 8
      | .chunk _ _ payload _ => bs.length = 12 + payload.length
      | _ => False

theorem EncodedFormat.byte (d : Byte) : EncodedFormat.Statement (.byte d) := fun _ => .inl rfl

theorem EncodedFormat.endBuf : EncodedFormat.Statement .endBuf := fun _ => .inl rfl

theorem EncodedFormat.signature : EncodedFormat.Statement .signature := fun cfg => by
  show cfg.sig.toList.length = 8
  simp

theorem EncodedFormat.chunk (length : Word) (type : TypeCode) (payload : List Byte) (checksum : Word) :
    EncodedFormat.Statement (.chunk length type payload checksum) := fun _ => by
  show (chunkBytes length type payload checksum).length = 12 + payload.length
  simp only [chunkBytes, be32Bytes, TypeCode.bytes, List.length_append, List.length_cons, List.length_nil]
  omega

theorem EncodedFormat.hdr (a b : Word) (f : BitVec 5) : EncodedFormat.Statement (.hdr a b f) := fun _ => rfl

theorem EncodedFormat.pay (a b : Word) (f : BitVec 5) : EncodedFormat.Statement (.pay a b f) := fun _ => rfl

theorem EncodedFormat.eoc (a b : Word) (f : BitVec 5) : EncodedFormat.Statement (.eoc a b f) := fun _ => rfl

theorem EncodedFormat.done (a b : Word) (f : BitVec 5) : EncodedFormat.Statement (.done a b f) := fun _ => rfl

theorem EncodedFormat.crcInit (d : Byte) : EncodedFormat.Statement (.crcInit d) := fun _ => .inr rfl

theorem EncodedFormat.crcUpd (d : Byte) : EncodedFormat.Statement (.crcUpd d) := fun _ => .inr rfl

theorem EncodedFormat.crcChk (d : Byte) : EncodedFormat.Statement (.crcChk d) := fun _ => .inr rfl

theorem EncodedFormat.beShift (r : BeReg) (d : Byte) : EncodedFormat.Statement (.beShift r d) := fun _ => .inr rfl

theorem EncodedFormat.tcShift (d : Byte) : EncodedFormat.Statement (.tcShift d) := fun _ => .inr rfl

theorem EncodedFormat.tcFlags (d : Byte) : EncodedFormat.Statement (.tcFlags d) := fun _ => .inr rfl

theorem EncodedFormat.tcValid (d : Byte) : EncodedFormat.Statement (.tcValid d) := fun _ => .inr rfl

end Sys2Proof.Laws
end

