-- ==== Sys2Proof/Laws/Step.lean ====
section
/-! SUPPORT. What one step can do, said once, and how a number of steps compose. -/

namespace Sys2Proof.Machine

/-- The meaning of the instruction of an event. -/
theorem exec_toInstr (e : Event) (s : State) : exec e.toInstr s = .next (s.present e) := by
  obtain ⟨k, a, b, f⟩ := e
  cases k <;> rfl

/-- A cycle without a command is the idle cycle, whether or not an event is handed over in it (R260). -/
theorem stepIdle_eq (s : State) : stepIdle s = .next s.idle := by
  unfold stepIdle
  split
  · rename_i e he
    rw [exec_toInstr, State.present_of_event he]
  · rfl

/-- A command word is `END` or the `BYTE` of its low bits (R80). -/
theorem decodeCmd_cases (w : BitVec 9) :
    (w.getLsbD 8 = true ∧ decodeCmd w = .endBuf) ∨
    (w.getLsbD 8 = false ∧ decodeCmd w = .byte (w.extractLsb' 0 8)) := by
  cases h : w.getLsbD 8
  · exact .inr ⟨rfl, by rw [decodeCmd, h]; rfl⟩
  · exact .inl ⟨rfl, by rw [decodeCmd, h]; rfl⟩

/-- Everything a step can do. `rest` is what the host presents after it. -/
inductive StepRule (s : State) : State → Prop
  | nothing (hi : s.inputs = []) : StepRule s s.idle
  | reset (v : Bool) (w : BitVec 9) (rest : List Input) (hi : s.inputs = .cycle true v w :: rest) :
      StepRule s (s.withInputs rest).resetCycle
  | idle (w : BitVec 9) (rest : List Input) (hi : s.inputs = .cycle false false w :: rest) :
      StepRule s (s.withInputs rest).idle
  | byte (w : BitVec 9) (rest : List Input) (hi : s.inputs = .cycle false true w :: rest)
      (hd : decodeCmd w = .byte (w.extractLsb' 0 8)) :
      StepRule s ((s.withInputs rest).acceptByte (w.extractLsb' 0 8))
  | endBuf (w : BitVec 9) (rest : List Input) (hi : s.inputs = .cycle false true w :: rest)
      (hd : decodeCmd w = .endBuf) : StepRule s (s.withInputs rest).acceptEnd
  | record (bs : List Byte) (i : Instr) (rest : List Input) (hi : s.inputs = .record bs :: rest)
      (hd : decodeWire s.cfg s.regs.phase s.regs.cnt bs = .ok i) (t : State)
      (ht : exec i (s.withInputs rest) = .next t) : StepRule s t
  | expand (bs : List Byte) (rest : List Input) (hi : s.inputs = .record bs :: rest) :
      StepRule s ((s.withInputs rest).expand bs)

/-- A step that goes on follows one of the rules. -/
theorem step_rule {s t : State} (h : step s = .next t) : StepRule s t := by
  unfold step at h
  split at h
  · rw [stepIdle_eq, Host.Outcome.next.injEq] at h
    exact h ▸ .nothing ‹_›
  · rename_i rst v w rest hi
    split at h
    · rename_i hr
      subst hr
      rw [Host.Outcome.next.injEq] at h
      exact h ▸ .reset v w rest hi
    · rename_i hr
      have hr : rst = false := by simpa using hr
      subst hr
      split at h
      · rename_i hv
        subst hv
        rcases decodeCmd_cases w with ⟨_, hd⟩ | ⟨_, hd⟩
        · rw [hd, exec, execEnd, Host.Outcome.next.injEq] at h
          exact h ▸ .endBuf w rest hi hd
        · rw [hd, exec, execByte, Host.Outcome.next.injEq] at h
          exact h ▸ .byte w rest hi hd
      · rename_i hv
        have hv : v = false := by simpa using hv
        subst hv
        rw [stepIdle_eq, Host.Outcome.next.injEq] at h
        exact h ▸ .idle w rest hi
  · rename_i bs rest hi
    split at h
    · exact .record bs _ rest hi ‹_› t h
    · rw [Host.Outcome.next.injEq] at h
      exact h ▸ .expand bs rest hi

/-! ### Several steps -/

theorem reaches_zero (s : State) : Reaches 0 s s := rfl

theorem reaches_zero_iff {s t : State} : Reaches 0 s t ↔ s = t := by
  constructor
  · intro h
    have h' : (.next s : Host.Outcome State Fault Refusal) = .next t := h
    exact Host.Outcome.next.inj h'
  · rintro rfl
    exact reaches_zero s

theorem reaches_succ {k : Nat} {s u t : State} (h : step s = .next u) (h' : Reaches k u t) : Reaches (k + 1) s t := by
  have hs : Sys2Proof.core.step s = .next u := h
  have hr : Sys2Proof.core.run k u = .next t := h'
  show Sys2Proof.core.run (k + 1) s = .next t
  simp only [Host.Core.run, hs, hr]

theorem reaches_add {j k : Nat} {s u t : State} (h : Reaches j s u) (h' : Reaches k u t) : Reaches (j + k) s t := by
  induction j generalizing s with
  | zero =>
    rw [reaches_zero_iff] at h
    rw [Nat.zero_add, h]
    exact h'
  | succ j ih =>
    have h1 : Sys2Proof.core.run (j + 1) s = .next u := h
    simp only [Host.Core.run] at h1
    split at h1
    · rename_i s' hs
      rw [Nat.add_right_comm]
      exact reaches_succ hs (ih h1)
    · simp at h1
    · simp at h1

/-- The cycle of `BYTE d`. -/
theorem step_byteCycle (s : State) (d : Byte) (rest : List Input) :
    step (s.withInputs (byteCycle d :: rest)) = .next ((s.withInputs rest).acceptByte d) := by
  simp [step, byteCycle, exec, execByte]

/-- The cycle of `END`. -/
theorem step_endCycle (s : State) (rest : List Input) :
    step (s.withInputs (endCycle :: rest)) = .next (s.withInputs rest).acceptEnd := by
  simp [step, endCycle, exec, execEnd]

end Sys2Proof.Machine
end

