-- ==== Sys2Proof/Laws/Wire.lean ====
section
/-! SUPPORT. What the block does as it takes the fields of a record one after the other: the pieces from which a whole
record is assembled (spec/43_deserializer.md R153 to R159). -/

namespace Sys2Proof.Machine

/-- Registers in the middle of a record, no failure latched. -/
abbrev Regs.inField (p : Phase) (n : Word) (len typ crc rx : Word) : Regs := ⟨p, n, len, typ, crc, rx, .ok⟩

/-- R153: the four length bytes, from any record boundary. -/
theorem feed_length (cfg : Config) (len typ crc rx L : Word) :
    feedRegs cfg (.inField .len 0 len typ crc rx) (be32Bytes L) = (.inField .type 0 L typ crc rx, []) := by
  simp [be32Bytes, feedRegs, byteStep, Regs.effPhase, Regs.legal, Regs.beShift, Regs.setPc, shiftIn_four, be32_of_bytes]

/-- R154, R155: the four type bytes. -/
theorem feed_type (cfg : Config) (L typ crc rx : Word) (T : TypeCode) :
    feedRegs cfg (.inField .type 0 L typ crc rx) T.bytes =
      (.inField (if L = 0 then .crc else .data) 0 L T.pack (crcRaw crcOnes T.bytes) rx, [hdrEvent L T]) := by
  have hp : shiftIn (shiftIn (shiftIn (shiftIn typ T.t0) T.t1) T.t2) T.t3 = T.pack := shiftIn_four _ _ _ _ _
  by_cases hL : L = 0#32 <;>
  simp [TypeCode.bytes, feedRegs, byteStep, Regs.effPhase, Regs.legal, Regs.crcUpd, Regs.crcWorking, Regs.tcShift,
    Regs.setPc, hp, hL, crcRaw, hdrEvent]

/-- R156: payload bytes, the last of them the record's last. -/
theorem feed_payload (cfg : Config) (L typ rx : Word) (P : List Byte) (n crc : Word) (hP : P ≠ [])
    (h : n.toNat + P.length = L.toNat) :
    feedRegs cfg (.inField .data n L typ crc rx) P = (.inField .crc 0 L typ (crcRaw crc P) rx, payEvents n P) := by
  induction P generalizing n crc with
  | nil => exact absurd rfl hP
  | cons d rest ih =>
    have hL := L.isLt
    have hlt : n < L := by rw [BitVec.lt_def]; simp at h; omega
    have hn1 : (n + 1).toNat = n.toNat + 1 := by rw [BitVec.toNat_add]; simp at h ⊢; omega
    by_cases hr : rest = []
    · subst hr
      have he : n + 1#32 = L := BitVec.eq_of_toNat_eq (hn1.trans h)
      simp [feedRegs, byteStep, Regs.effPhase, Regs.legal, hlt, Regs.crcUpd, Regs.crcWorking, Regs.setPc, he, crcRaw,
        payEvents]
    · have hne : n + 1 ≠ L := by
        intro he
        have := congrArg BitVec.toNat he
        have : rest.length ≠ 0 := fun h0 => hr (List.eq_nil_of_length_eq_zero h0)
        simp at h
        omega
      have hs : byteStep cfg (.inField .data n L typ crc rx) d =
          (.inField .data (n + 1) L typ (crcStep crc d) rx, some ⟨.pay, n, d.setWidth 32, 0⟩) := by
        simp only [byteStep, Regs.effPhase, Regs.legal, hlt, decide_true, Bool.and_self, if_true, Regs.crcUpd,
          Regs.crcWorking, Regs.setPc, hne, if_false, reduceCtorEq, false_and]
      simp only [feedRegs, hs, ih (n + 1) (crcStep crc d) hr (by simp at h; omega), crcRaw, payEvents]
      rfl

/-- R157 to R159: the four checksum bytes. -/
theorem feed_checksum (cfg : Config) (L typ crc rx C : Word) :
    feedRegs cfg (.inField .crc 0 L typ crc rx) (be32Bytes C) =
      if C = crc ^^^ crcOnes then (.inField .len 0 L typ crc C, [eocEvent C])
      else (⟨.fail, 0, L, typ, crc, C, .checksumMismatch⟩, []) := by
  by_cases hC : C = crc ^^^ crcOnes <;>
  simp [be32Bytes, feedRegs, byteStep, Regs.effPhase, Regs.legal, Regs.crcOk, Regs.beShift, Regs.setPc, Regs.raise,
    shiftIn_four, be32_of_bytes, hC, eocEvent]

end Sys2Proof.Machine
end

