-- ==== Sys2Proof/Tests/Slice0.lean ====
section
/-! SUPPORT. Small tests. The expected values are those of spec/95_test_vectors.md (V1 to V3, P1 to P5, sections 2.1 to 2.3)
and of the rules named; the witness theorems show states and operands that meet the hypotheses of each statement of
Certificates/Slice0/Obligations.lean. -/

open Sys2Proof Sys2Proof.Machine

namespace Sys2Proof.Tests

/-- A state with given registers and nothing on the ports. -/
def probe (r : Regs) : State := { State.reset with regs := r }

/-- The registers and the presented event an instruction leaves; `none` if it stops. -/
def after (i : Instr) (s : State) : Option (Regs × Option Event) :=
  match exec i s with
  | .next t => some (t.regs, t.event)
  | .fault _ => none
  | .refused _ => none

/-- The comparator's line after an instruction; `none` if it stops. -/
def chkAfter (i : Instr) (s : State) : Option Bool :=
  match exec i s with
  | .next t => some t.chkOk
  | .fault _ => none
  | .refused _ => none

/-- A record boundary after `S0`. -/
def boundary : State := probe ⟨.len, 0, 0, 0, 0, 0, .ok⟩

def typeIEND : TypeCode := ⟨0x49, 0x45, 0x4E, 0x44⟩

def typeTEXt : TypeCode := ⟨0x74, 0x45, 0x58, 0x74⟩

/-- `CHUNK "IEND", ""` (95_test_vectors.md section 3). -/
def chunkIEND : Chunk := ⟨0, typeIEND, [], 0xAE426082⟩

/-- `CHUNK "tEXt", "hi"` (95_test_vectors.md section 3). -/
def chunkTEXt : Chunk := ⟨2, typeTEXt, [0x68, 0x69], 0x7569E6DF⟩

/-! ### WellFormed: an ill-formed term for each check -/

theorem test_wf_chunk_length : (Instr.chunk 3 typeTEXt [0x68, 0x69] 0).wellFormed = false := by decide

theorem test_wf_hdr_flags : (Instr.hdr 0 0x49454E44 0x1E).wellFormed = false := by decide

theorem test_wf_pay_byte : (Instr.pay 0 0x100 0).wellFormed = false := by decide

theorem test_wf_pay_flags : (Instr.pay 0 0xFF 1).wellFormed = false := by decide

theorem test_wf_eoc_b : (Instr.eoc 0 1 0).wellFormed = false := by decide

theorem test_wf_eoc_flags : (Instr.eoc 0 0 0x10).wellFormed = false := by decide

theorem test_wf_done_status : (Instr.done 4 0 0).wellFormed = false := by decide

theorem test_wf_done_b : (Instr.done 3 1 0).wellFormed = false := by decide

theorem test_wf_done_flags : (Instr.done 3 0 1).wellFormed = false := by decide

/-! ### Decoding: words written out from the layouts -/

/-- R81: `0dddddddd`, here with `d = 0x89`. -/
theorem test_decode_byte : decodeCmd 0b010001001 = .byte 0x89 := by decide

/-- R82: `1xxxxxxxx`, the low bits ignored. -/
theorem test_decode_end : decodeCmd 0b100000000 = .endBuf ∧ decodeCmd 0b101010101 = .endBuf := by decide

/-- R71, D7. -/
theorem test_decode_signature :
    decode Config.standard .sig 0 (.wire [0x89, 0x50, 0x4E, 0x47, 0x0D, 0x0A, 0x1A, 0x0A]) = .ok .signature := by decide

/-- R72: the bytes of `CHUNK "tEXt", "hi"`. -/
theorem test_decode_chunk :
    decode Config.standard .len 0
      (.wire [0, 0, 0, 2, 0x74, 0x45, 0x58, 0x74, 0x68, 0x69, 0x75, 0x69, 0xE6, 0xDF]) =
      .ok (.chunk 2 typeTEXt [0x68, 0x69] 0x7569E6DF) := by decide

/-- R72, R76: one byte short, one byte long. -/
theorem test_decode_chunk_rejects :
    decode Config.standard .len 0 (.wire [0, 0, 0, 0, 0x49, 0x45, 0x4E, 0x44, 0xAE, 0x42, 0x60]) = .error .shortRecord ∧
    decode Config.standard .len 0 (.wire [0, 0, 0, 0, 0x49, 0x45, 0x4E, 0x44, 0xAE, 0x42, 0x60, 0x82, 0]) =
      .error .longRecord := by decide

/-- R84, V1. -/
theorem test_decode_hdr :
    decode Config.standard .sig 0 (.evt 0x000000054A4EAA6E95) = .ok (.hdr 42 0x52755374 0x15) := by decide

theorem test_decode_pay :
    decode Config.standard .sig 0 (.evt 0x200000052000000420) = .ok (.pay 41 0x21 0) := by decide

theorem test_decode_eoc :
    decode Config.standard .sig 0 (.evt 0x557A3B09C000000000) = .ok (.eoc 0xABD1D84E 0 0) := by decide

theorem test_decode_done : decode Config.standard .sig 0 (.evt 0x600000000000000000) = .ok (.done 0 0 0) := by decide

/-- R92: the unit operations of the command word `0x049` are told apart by phase and count. -/
theorem test_decode_units :
    decodeCmd 0b001001001 = .byte 0x49 ∧
    decodeUnits .len 0 0x49 = [.beShift .len 0x49] ∧
    decodeUnits .type 0 0x49 = [.crcInit 0x49, .crcUpd 0x49, .tcShift 0x49] ∧
    decodeUnits .type 3 0x49 = [.tcFlags 0x49, .tcValid 0x49, .crcUpd 0x49, .tcShift 0x49] ∧
    decodeUnits .data 7 0x49 = [.crcUpd 0x49] ∧
    decodeUnits .crc 3 0x49 = [.crcChk 0x49, .beShift .rx 0x49] := by decide

/-- The table's numbering: a 9-bit word in two bytes, the signature's and a record's head in eight, an event in nine. -/
theorem test_decode_table :
    decodeTableWord 16 0x049 = some (.byte 0x49) ∧ decodeTableWord 16 0x100 = some .endBuf ∧
    decodeTableWord 64 0x89504E470D0A1A0A = some .signature ∧
    decodeTableWord 64 0x0000000049454E44 = some (.chunk 0 typeIEND [] 0) ∧
    decodeTableWord 72 0x600000000000000000 = some (.done 0 0 0) := by decide

/-! ### One step of each instruction -/

/-- P1 step 12: CRC.INIT then CRC.UPD in one step. -/
theorem test_byte_first_of_type :
    after (.byte 0x49) (probe ⟨.type, 0, 0, 0, 0, 0, .ok⟩) = some (⟨.type, 1, 0, 0x49, 0x22FDE946, 0, .ok⟩, none) := by
  decide

/-- P3 step 21: `rx` is written although the step fails. -/
theorem test_byte_wrong_checksum :
    after (.byte 0xDE) (probe ⟨.crc, 3, 2, 0x74455874, 0x8A961920, 0x007569E6, .ok⟩) =
      some (⟨.fail, 0, 2, 0x74455874, 0x8A961920, 0x7569E6DE, .checksumMismatch⟩, none) := by decide

/-- P3 step 24. -/
theorem test_end_after_failure :
    after .endBuf (probe ⟨.fail, 0, 2, 0x74455874, 0x8A961920, 0x7569E6DE, .checksumMismatch⟩) =
      some (Regs.s0, some ⟨.done, 3, 0, 0⟩) := by decide

/-- P4 step 17. -/
theorem test_end_inside_payload :
    after .endBuf (probe ⟨.data, 1, 5, 0x624C4F62, 0x11E34264, 0, .ok⟩) = some (Regs.s0, some ⟨.done, 2, 0, 0⟩) := by
  decide

/-- P1 step 7. -/
theorem test_signature : after .signature (probe Regs.s0) = some (⟨.len, 0, 0, 0, 0, 0, .ok⟩, none) := by decide

/-- P1 step 19. -/
theorem test_chunk :
    after (.chunk 0 typeIEND [] 0xAE426082) boundary =
      some (⟨.len, 0, 0, 0x49454E44, 0x51BD9F7D, 0xAE426082, .ok⟩, some ⟨.eoc, 0xAE426082, 0, 0⟩) := by decide +kernel

/-- An event is taken: the port is idle after it, the registers stand (R84, R267). -/
theorem test_hdr : after (.hdr 42 0x52755374 0x15) boundary = some (boundary.regs, none) := by decide

theorem test_pay : after (.pay 0 0x54 0) boundary = some (boundary.regs, none) := by decide

theorem test_eoc : after (.eoc 0xABD1D84E 0 0) boundary = some (boundary.regs, none) := by decide

theorem test_done : after (.done 0 0 0) boundary = some (boundary.regs, none) := by decide

/-- R101: `crc_step(0xFFFFFFFF, 0x52)`, whatever `crc` was. -/
theorem test_crcInit :
    after (.crcInit 0x52) (probe ⟨.type, 0, 0, 0, 0x12345678, 0, .ok⟩) =
      some (⟨.type, 0, 0, 0, 0xA89820AA, 0, .ok⟩, none) := by decide

/-- V1: `crc` after `R u`. -/
theorem test_crcUpd :
    after (.crcUpd 0x75) (probe ⟨.type, 1, 42, 0x52, 0xA89820AA, 0, .ok⟩) =
      some (⟨.type, 1, 42, 0x52, 0x16C45765, 0, .ok⟩, none) := by decide

/-- Section 2.1: `crc = 0x542E27B1`, `rx' = 0xABD1D84E` passes and `rx' = 0xABD1D84D` fails. -/
theorem test_crcChk :
    let s := probe ⟨.crc, 3, 42, 0x52755374, 0x542E27B1, 0x00ABD1D8, .ok⟩
    chkAfter (.crcChk 0x4E) s = some true ∧ chkAfter (.crcChk 0x4D) s = some false := by decide

/-- R35: no register is written and no event emitted. -/
theorem test_crcChk_writes_nothing :
    after (.crcChk 0x4D) (probe ⟨.crc, 3, 42, 0x52755374, 0x542E27B1, 0x00ABD1D8, .ok⟩) =
      some (⟨.crc, 3, 42, 0x52755374, 0x542E27B1, 0x00ABD1D8, .ok⟩, none) := by decide

/-- Section 2.2: from `0x12345678`, byte `9A`: `3456789A`; from `DEADBEEF`, byte `00`: `ADBEEF00`. -/
theorem test_beShift :
    after (.beShift .len 0x9A) (probe ⟨.len, 0, 0x12345678, 0, 0, 0, .ok⟩) =
      some (⟨.len, 0, 0x3456789A, 0, 0, 0, .ok⟩, none) ∧
    after (.beShift .rx 0x00) (probe ⟨.crc, 0, 0, 0, 0, 0xDEADBEEF, .ok⟩) =
      some (⟨.crc, 0, 0, 0, 0, 0xADBEEF00, .ok⟩, none) := by decide

/-- Section 2.3: from `typ = 0x74455874`, byte `49`: `45587449`. -/
theorem test_tcShift :
    after (.tcShift 0x49) (probe ⟨.type, 0, 0, 0x74455874, 0, 0, .ok⟩) =
      some (⟨.type, 0, 0, 0x45587449, 0, 0, .ok⟩, none) := by decide

/-- Section 2.3: `1EXt` has `ev_f = 0x06`, so `flags4 = 0110b`. -/
theorem test_tcFlags :
    after (.tcFlags 0x74) { probe ⟨.type, 3, 0, 0x00314558, 0, 0, .ok⟩ with evValid := true, ev := ⟨.hdr, 0, 0, 0x19⟩ } =
      some (⟨.type, 3, 0, 0x00314558, 0, 0, .ok⟩, some ⟨.hdr, 0, 0, 0x16⟩) := by decide

/-- Section 2.3: `RuSt` is valid, `Rust` is not. -/
theorem test_tcValid :
    after (.tcValid 0x74) { probe ⟨.type, 3, 0, 0x00527553, 0, 0, .ok⟩ with evValid := true, ev := ⟨.hdr, 0, 0, 0x05⟩ } =
      some (⟨.type, 3, 0, 0x00527553, 0, 0, .ok⟩, some ⟨.hdr, 0, 0, 0x15⟩) ∧
    after (.tcValid 0x74) { probe ⟨.type, 3, 0, 0x00527573, 0, 0, .ok⟩ with evValid := true, ev := ⟨.hdr, 0, 0, 0x15⟩ } =
      some (⟨.type, 3, 0, 0x00527573, 0, 0, .ok⟩, some ⟨.hdr, 0, 0, 0x05⟩) := by decide

/-- Section 2.3, the rows `RuSt`, `IEND`, `@[` backquote `brace`, `azAz`, `azaz`, `Ru1t`. -/
theorem test_flag_table :
    hdrFlags ⟨0x52, 0x75, 0x53, 0x74⟩ = 0x15 ∧ hdrFlags typeIEND = 0x1F ∧ hdrFlags ⟨0x40, 0x5B, 0x60, 0x7B⟩ = 0 ∧
    hdrFlags ⟨0x61, 0x7A, 0x41, 0x7A⟩ = 0x14 ∧ hdrFlags ⟨0x61, 0x7A, 0x61, 0x7A⟩ = 0 ∧
    hdrFlags ⟨0x52, 0x75, 0x31, 0x74⟩ = 0x01 := by decide

/-- The four queries on `RuSt` (R133, V1), and one on `rUsT`. -/
theorem test_queries :
    isCritical ⟨0x52, 0x75, 0x53, 0x74⟩ = true ∧ isPublic ⟨0x52, 0x75, 0x53, 0x74⟩ = false ∧
    isReservedBitValid ⟨0x52, 0x75, 0x53, 0x74⟩ = true ∧ isSafeToCopy ⟨0x52, 0x75, 0x53, 0x74⟩ = false ∧
    isSafeToCopy ⟨0x72, 0x55, 0x73, 0x54⟩ = true := by decide

/-- R91: `CHUNK "IEND", ""` is `12` commands, the bytes of the record of section 3. -/
theorem test_stream_chunk :
    StreamLine.expand Config.standard (.chunk typeIEND []) =
      [0, 0, 0, 0, 0x49, 0x45, 0x4E, 0x44, 0xAE, 0x42, 0x60, 0x82].map Instr.byte := by decide +kernel

/-- V2: the checksum off by one is `ChecksumMismatch`; a record one byte short is `Truncated` (R193). -/
theorem test_parse_failures :
    parseChunk [0, 0, 0, 0, 0x49, 0x45, 0x4E, 0x44, 0xAE, 0x42, 0x60, 0x81] = .error .checksumMismatch ∧
    parseChunk [0, 0, 0, 0, 0x49, 0x45, 0x4E, 0x44, 0xAE, 0x42, 0x60] = .error .truncated := by decide +kernel

/-- R208, U2: the text of an ASCII code is its four bytes, a code with a byte from `0x80` on has none; R209: ASCII data. -/
theorem test_text :
    typecodeToText typeTEXt = some [0x74, 0x45, 0x58, 0x74] ∧ typecodeToText ⟨0xC3, 0xA9, 0x41, 0x41⟩ = none ∧
    dataAsText chunkTEXt = .ok [0x68, 0x69] := by decide +kernel

/-- A command word placed by `withFetchWord` is the next thing a step runs (P1 step 0). -/
theorem test_step_fetches :
    (match step (State.reset.withFetchWord 16 0x089) with
      | .next t => some t.regs
      | .fault _ => none
      | .refused _ => none) = some ⟨.sig, 1, 0, 0, 0, 0, .ok⟩ := by decide

/-! ### Witnesses: states and operands that meet the hypotheses of the statements -/

theorem witness_CommandWordsMatchMask :
    (0x000#9 &&& 0x100 = 0x000 ∧ 0x0FF#9 &&& 0x100 = 0x000) ∧ (0x100#9 &&& 0x100 = 0x100 ∧ 0x1FF#9 &&& 0x100 = 0x100) := by
  decide

theorem witness_DecodeEncodeRoundTrip :
    ∀ i ∈ [Instr.byte 0xFF, .endBuf, .signature, .chunk 0 typeIEND [] 0xFFFFFFFF, .chunk 1 typeTEXt [0xFF] 0,
        .hdr 0xFFFFFFFF 0x52755374 0x15, .pay 0xFFFFFFFF 0xFF 0, .eoc 0xFFFFFFFF 0 0, .done 3 0 0],
      i.wellFormed = true ∧ i.format ≠ .unit := by decide

theorem witness_EncodeDecodeRoundTrip :
    decode Config.standard .sig 0 (.cmd 0x1FF) = .ok .endBuf ∧
    decode Config.standard .sig 0 (.wire Config.standard.sig.toList) = .ok .signature ∧
    decode Config.standard .len 0 (.wire [0, 0, 0, 0, 0x49, 0x45, 0x4E, 0x44, 0xAE, 0x42, 0x60, 0x82]) =
      .ok (.chunk 0 typeIEND [] 0xAE426082) ∧
    decode Config.standard .sig 0 (.evt 0x600000000000000000) = .ok (.done 0 0 0) := by decide

theorem witness_UnitOpsCarryTheBytePattern :
    Instr.crcInit 0 ∈ decodeUnits .type 0 0 ∧ Instr.crcChk 0xFF ∈ decodeUnits .crc 3 0xFF ∧
    Instr.beShift .len 0 ∈ decodeUnits .len 3 0 ∧ Instr.tcValid 0 ∈ decodeUnits .type 3 0 := by decide

/-- At `cnt = 0` and at `cnt = 7`, the two branches. -/
theorem witness_ByteMatchesSignature :
    ((probe Regs.s0).regs.legal = true ∧ (probe Regs.s0).regs.phase = .sig ∧
      (probe Regs.s0).cfg.sig[(probe Regs.s0).regs.cnt.toNat]? = some 0x89) ∧
    ((probe ⟨.sig, 7, 0, 0, 0, 0, .ok⟩).regs.legal = true ∧ (probe ⟨.sig, 7, 0, 0, 0, 0, .ok⟩).regs.phase = .sig ∧
      (probe ⟨.sig, 7, 0, 0, 0, 0, .ok⟩).cfg.sig[(probe ⟨.sig, 7, 0, 0, 0, 0, .ok⟩).regs.cnt.toNat]? = some 0x0A) := by
  decide

theorem witness_ByteDiffersFromSignature :
    (probe Regs.s0).regs.legal = true ∧ (probe Regs.s0).regs.phase = .sig ∧
    (probe Regs.s0).cfg.sig[(probe Regs.s0).regs.cnt.toNat]? ≠ some 0x88 ∧
    (probe ⟨.sig, 7, 0, 0, 0, 0, .ok⟩).cfg.sig[(probe ⟨.sig, 7, 0, 0, 0, 0, .ok⟩).regs.cnt.toNat]? ≠ some 0x0B := by decide

/-- At `cnt = 0` and at `cnt = 3`. -/
theorem witness_ByteOfLength :
    ∀ r ∈ [(⟨.len, 0, 2, 0, 0, 0, .ok⟩ : Regs), ⟨.len, 3, 0xFFFFFFFF, 0, 0, 0, .ok⟩],
      (probe r).regs.legal = true ∧ (probe r).regs.phase = .len := by decide

/-- At `cnt = 0` and at `cnt = 2`. -/
theorem witness_ByteOfTypeBeforeTheLast :
    ∀ r ∈ [(⟨.type, 0, 0, 0, 0, 0, .ok⟩ : Regs), ⟨.type, 2, 5, 0x4945, 0x992BAC53, 0, .ok⟩],
      (probe r).regs.legal = true ∧ (probe r).regs.phase = .type ∧ (probe r).regs.cnt < 3 := by decide

/-- With `len = 0` and with `len = 0xFFFFFFFF`. -/
theorem witness_LastByteOfType :
    ∀ r ∈ [(⟨.type, 3, 0, 0x49454E, 0x639F4775, 0, .ok⟩ : Regs), ⟨.type, 3, 0xFFFFFFFF, 0x49454E, 0x639F4775, 0, .ok⟩],
      (probe r).regs.legal = true ∧ (probe r).regs.phase = .type ∧ (probe r).regs.cnt = 3 ∧
      (0x49454E44 : Word) = (probe r).regs.typ.extractLsb' 0 24 ++ (0x44 : Byte) := by decide

/-- The first of many payload bytes, the last of one, the last of `2^32 - 1`. -/
theorem witness_ByteOfPayload :
    ∀ r ∈ [(⟨.data, 0, 0xFFFFFFFF, 0, 0, 0, .ok⟩ : Regs), ⟨.data, 0, 1, 0, 0, 0, .ok⟩,
        ⟨.data, 0xFFFFFFFE, 0xFFFFFFFF, 0, 0, 0, .ok⟩],
      (probe r).regs.legal = true ∧ (probe r).regs.phase = .data := by decide

theorem witness_ByteOfChecksumBeforeTheLast :
    ∀ r ∈ [(⟨.crc, 0, 0, 0, 0, 0, .ok⟩ : Regs), ⟨.crc, 2, 0, 0, 0, 0xAE42, .ok⟩],
      (probe r).regs.legal = true ∧ (probe r).regs.phase = .crc ∧ (probe r).regs.cnt < 3 := by decide

/-- `IEND` with its checksum. -/
theorem witness_LastByteOfMatchingChecksum :
    let s := probe ⟨.crc, 3, 0, 0x49454E44, 0x51BD9F7D, 0x00AE4260, .ok⟩
    s.regs.legal = true ∧ s.regs.phase = .crc ∧ s.regs.cnt = 3 ∧
    (0xAE426082 : Word) = s.regs.rx.extractLsb' 0 24 ++ (0x82 : Byte) ∧ (0xAE426082 : Word) = s.regs.crc ^^^ 0xFFFFFFFF := by
  decide

/-- `IEND` with its checksum off by one bit. -/
theorem witness_LastByteOfWrongChecksum :
    let s := probe ⟨.crc, 3, 0, 0x49454E44, 0x51BD9F7D, 0x00AE4260, .ok⟩
    s.regs.legal = true ∧ s.regs.phase = .crc ∧ s.regs.cnt = 3 ∧
    (0xAE426083 : Word) = s.regs.rx.extractLsb' 0 24 ++ (0x83 : Byte) ∧ (0xAE426083 : Word) ≠ s.regs.crc ^^^ 0xFFFFFFFF := by
  decide

theorem witness_ByteDrainedAfterFailure : (probe ⟨.fail, 0, 0, 0, 0, 0, .badSignature⟩).regs.phase = .fail := by decide

theorem witness_UnreachedPatternsActAsFail :
    (probe ⟨.sig, 8, 0, 0, 0, 0, .ok⟩).regs.legal = false ∧ (probe ⟨.data, 0, 0, 0, 0, 0, .ok⟩).regs.legal = false ∧
    (probe ⟨.fail, 0, 0, 0, 0, 0, .truncated⟩).regs.legal = false := by decide

/-- A step of each of the three kinds. -/
theorem witness_ByteEmitsByRule :
    (∃ t e, exec (.byte 0x44) (probe ⟨.type, 3, 0, 0x49454E, 0x639F4775, 0, .ok⟩) = .next t ∧ t.event = some e ∧
      e.kind = .hdr) ∧
    (∃ t e, exec (.byte 0x68) (probe ⟨.data, 0, 2, 0, 0, 0, .ok⟩) = .next t ∧ t.event = some e ∧ e.kind = .pay) ∧
    (∃ t e, exec (.byte 0x82) (probe ⟨.crc, 3, 0, 0x49454E44, 0x51BD9F7D, 0x00AE4260, .ok⟩) = .next t ∧
      t.event = some e ∧ e.kind = .eoc) :=
  ⟨⟨_, ⟨.hdr, 0, 0x49454E44, 0x1F⟩, rfl, by decide, rfl⟩, ⟨_, ⟨.pay, 0, 0x68, 0⟩, rfl, by decide, rfl⟩,
    ⟨_, ⟨.eoc, 0xAE426082, 0, 0⟩, rfl, by decide, rfl⟩⟩

theorem witness_EndInSignature :
    ∀ r ∈ [Regs.s0, ⟨.sig, 7, 0, 0, 0, 0, .ok⟩], (probe r).regs.legal = true ∧ (probe r).regs.phase = .sig := by decide

/-- Both clauses: at the boundary the first, and what its conclusion says is the hypothesis of the second. -/
theorem witness_EndOnBoundaryOnlyIsOk :
    (boundary.regs.legal = true ∧ boundary.regs.phase = .len ∧ boundary.regs.cnt = 0) ∧
    Steps .endBuf boundary ⟨.sig, 0, 0, 0, 0, 0, .ok⟩ (some ⟨.done, 0, 0, 0⟩) :=
  ⟨by decide, _, rfl, rfl, by decide, rfl, rfl, rfl⟩

/-- One state for each of the four disjuncts. -/
theorem witness_EndInsideRecord :
    ∀ r ∈ [(⟨.len, 1, 0, 0, 0, 0, .ok⟩ : Regs), ⟨.type, 0, 0, 0, 0, 0, .ok⟩, ⟨.data, 0, 1, 0, 0, 0, .ok⟩,
        ⟨.crc, 0, 0, 0, 0, 0, .ok⟩],
      (probe r).regs.legal = true ∧
      (((probe r).regs.phase = .len ∧ (probe r).regs.cnt ≠ 0) ∨ (probe r).regs.phase = .type ∨
        (probe r).regs.phase = .data ∨ (probe r).regs.phase = .crc) := by decide

theorem witness_EndAfterFailure :
    ∀ r ∈ [(⟨.fail, 0, 0, 0, 0, 0, .badSignature⟩ : Regs), ⟨.fail, 0, 0, 0, 0, 0, .checksumMismatch⟩],
      (probe r).regs.legal = true ∧ (probe r).regs.phase = .fail := by decide

theorem witness_FailureIsLatchedWithoutEvent :
    (∃ t, exec (.byte 0x88) (probe Regs.s0) = .next t ∧ (probe Regs.s0).regs.phase ≠ .fail ∧ t.regs.phase = .fail) ∧
    (∃ t, exec (.byte 0x83) (probe ⟨.crc, 3, 0, 0x49454E44, 0x51BD9F7D, 0x00AE4260, .ok⟩) = .next t ∧
      (probe ⟨.crc, 3, 0, 0x49454E44, 0x51BD9F7D, 0x00AE4260, .ok⟩).regs.phase ≠ .fail ∧ t.regs.phase = .fail) :=
  ⟨⟨_, rfl, by decide, by decide⟩, ⟨_, rfl, by decide, by decide⟩⟩

/-- A failed state that an END leaves, one that a reset cycle leaves, one that a BYTE keeps. -/
theorem witness_FailLeftOnlyByEndOrReset :
    let f := probe ⟨.fail, 0, 0, 0, 0, 0, .badSignature⟩
    (∃ t, step (f.withInputs [endCycle]) = .next t) ∧ (∃ t, step (f.withInputs [.cycle true true 0]) = .next t) ∧
    (∃ t, step (f.withInputs [byteCycle 0]) = .next t) ∧ f.regs.phase = .fail :=
  ⟨⟨_, rfl⟩, ⟨_, rfl⟩, ⟨_, rfl⟩, rfl⟩

theorem witness_ResetCycleDominates :
    (boundary.withInputs [.cycle true true 0x100]).inputs = .cycle true true 0x100 :: [] := by decide

theorem witness_IdleCycleKeepsRegisters :
    boundary.inputs = [] ∧ (boundary.withInputs [.cycle false false 0x1FF]).inputs.head? = some (.cycle false false 0x1FF) := by
  decide

/-- One state for each of the four clauses. -/
theorem witness_StepRunsDecodedInstruction :
    ((boundary.withInputs [.cycle false true 0x049]).inputs = .cycle false true 0x049 :: [] ∧
      decode boundary.cfg boundary.regs.phase boundary.regs.cnt (.cmd 0x049) = .ok (.byte 0x49)) ∧
    ((boundary.withInputs [.record [0, 0, 0, 0, 0x49, 0x45, 0x4E, 0x44, 0xAE, 0x42, 0x60, 0x82]]).inputs =
        .record [0, 0, 0, 0, 0x49, 0x45, 0x4E, 0x44, 0xAE, 0x42, 0x60, 0x82] :: [] ∧
      decode boundary.cfg boundary.regs.phase boundary.regs.cnt
        (.wire [0, 0, 0, 0, 0x49, 0x45, 0x4E, 0x44, 0xAE, 0x42, 0x60, 0x82]) = .ok (.chunk 0 typeIEND [] 0xAE426082)) ∧
    (({ boundary with evValid := true, ev := ⟨.done, 0, 0, 0⟩, inputs := [idleCycle] } : State).inputs =
        .cycle false false 0 :: [] ∧
      ({ boundary with evValid := true, ev := ⟨.done, 0, 0, 0⟩, inputs := [idleCycle] } : State).event =
        some ⟨.done, 0, 0, 0⟩ ∧
      decode boundary.cfg boundary.regs.phase boundary.regs.cnt (.evt (Event.word ⟨.done, 0, 0, 0⟩)) = .ok (.done 0 0 0)) ∧
    (({ boundary with evValid := true, ev := ⟨.pay, 0, 0xFF, 0⟩ } : State).inputs = [] ∧
      ({ boundary with evValid := true, ev := ⟨.pay, 0, 0xFF, 0⟩ } : State).event = some ⟨.pay, 0, 0xFF, 0⟩ ∧
      decode boundary.cfg boundary.regs.phase boundary.regs.cnt (.evt (Event.word ⟨.pay, 0, 0xFF, 0⟩)) =
        .ok (.pay 0 0xFF 0)) := by decide

/-- The matching value; and two values that differ in bit 0 only and in bit 31 only. -/
theorem witness_CrcChkComparesAllBits :
    let s := probe ⟨.crc, 3, 0, 0x49454E44, 0x51BD9F7D, 0x00AE4260, .ok⟩
    let u := probe ⟨.crc, 3, 0, 0x49454E44, 0x51BD9F7D, 0x002E4260, .ok⟩
    ((0xAE426082 : Word) = s.regs.rx.extractLsb' 0 24 ++ (0x82 : Byte) ∧ (0xAE426082 : Word) = s.regs.crc ^^^ 0xFFFFFFFF) ∧
    ((0xAE426083 : Word) = s.regs.rx.extractLsb' 0 24 ++ (0x83 : Byte) ∧
      (0xAE426083 : Word).getLsbD 0 ≠ (s.regs.crc ^^^ 0xFFFFFFFF).getLsbD 0) ∧
    ((0x2E426082 : Word) = u.regs.rx.extractLsb' 0 24 ++ (0x82 : Byte) ∧
      (0x2E426082 : Word).getLsbD 31 ≠ (u.regs.crc ^^^ 0xFFFFFFFF).getLsbD 31) := by decide

theorem witness_TcFlagsAndValidDriveEvF :
    (⟨0x52, 0x75, 0x53, 0x74⟩ : TypeCode) =
      TypeCode.ofWord ((probe ⟨.type, 3, 0, 0x00527553, 0, 0, .ok⟩).regs.typ.extractLsb' 0 24 ++ (0x74 : Byte)) := by decide

/-- In every phase; and at the last byte of a checksum that matches and of one that does not. -/
theorem witness_ByteIsItsUnitOperations :
    (∀ r ∈ [Regs.s0, ⟨.len, 3, 0, 0, 0, 0, .ok⟩, ⟨.type, 0, 0, 0, 0, 0, .ok⟩, ⟨.type, 3, 0, 0x49454E, 0x639F4775, 0, .ok⟩,
        ⟨.data, 0, 1, 0, 0, 0, .ok⟩, ⟨.fail, 0, 0, 0, 0, 0, .badSignature⟩], (probe r).regs.legal = true) ∧
    (let s := probe ⟨.crc, 3, 0, 0x49454E44, 0x51BD9F7D, 0x00AE4260, .ok⟩
     s.regs.legal = true ∧ s.regs.phase = .crc ∧ s.regs.cnt = 3 ∧
     (∃ u, execAll (decodeUnits .crc 3 0x82) s = some u ∧ u.chkOk = true) ∧
     ∃ u, execAll (decodeUnits .crc 3 0x83) s = some u ∧ u.chkOk = false) ∧
    (∃ t e, exec (.byte 0x44) (probe ⟨.type, 3, 0, 0x49454E, 0x639F4775, 0, .ok⟩) = .next t ∧ t.event = some e ∧
      e.kind = .hdr) :=
  ⟨by decide, ⟨rfl, rfl, rfl, ⟨_, rfl, by decide⟩, _, rfl, by decide⟩, _, ⟨.hdr, 0, 0x49454E44, 0x1F⟩, rfl, by decide, rfl⟩

/-- The disjunction of the statement, for each kind. -/
theorem witness_EventIsTakenByTheHost :
    ∀ p ∈ [(Instr.hdr 1 2 3, EvKind.hdr), (.pay 1 2 3, .pay), (.eoc 1 2 3, .eoc), (.done 1 2 3, .done)],
      (p.1 = .hdr 1 2 3 ∧ p.2 = .hdr) ∨ (p.1 = .pay 1 2 3 ∧ p.2 = .pay) ∨ (p.1 = .eoc 1 2 3 ∧ p.2 = .eoc) ∨
        (p.1 = .done 1 2 3 ∧ p.2 = .done) := by decide

theorem witness_SignatureLeadsToBoundary :
    State.reset.regs.phase = .sig ∧ State.reset.regs.cnt = 0 ∧ State.reset.regs.err = .ok := by decide

/-- An empty record and one with a payload. -/
theorem witness_GoodRecordIsAccepted :
    boundary.regs.atBoundary ∧
    (([] : List Byte).length = (0 : Word).toNat ∧ (0xAE426082 : Word) = crc32 (typeIEND.bytes ++ [])) ∧
    ([0x68, 0x69].length = (2 : Word).toNat ∧ (0x7569E6DF : Word) = crc32 (typeTEXt.bytes ++ [0x68, 0x69])) :=
  ⟨⟨rfl, rfl, rfl⟩, by decide +kernel, by decide +kernel⟩

theorem witness_BadRecordIsRefused :
    boundary.regs.atBoundary ∧
    (([] : List Byte).length = (0 : Word).toNat ∧ (0xAE426083 : Word) ≠ crc32 (typeIEND.bytes ++ [])) ∧
    ([0x68, 0x69].length = (2 : Word).toNat ∧ (0x7569E6DE : Word) ≠ crc32 (typeTEXt.bytes ++ [0x68, 0x69])) :=
  ⟨⟨rfl, rfl, rfl⟩, by decide +kernel, by decide +kernel⟩

theorem witness_RecordsAfterFailureAreDrained :
    (probe ⟨.fail, 0, 0, 0, 0, 0, .badSignature⟩).regs.phase = .fail ∧
    (Instr.signature = .signature ∨ Instr.signature = .chunk 0 typeIEND [] 0) ∧
    (Instr.chunk 0 typeIEND [] 0 = .signature ∨ Instr.chunk 0 typeIEND [] 0 = .chunk 0 typeIEND [] 0) := by decide

/-- The signature at offset 0 and a record at a boundary. -/
theorem witness_WireRecordIsItsByteCommands :
    (encode (probe Regs.s0).cfg .signature = .wire [0x89, 0x50, 0x4E, 0x47, 0x0D, 0x0A, 0x1A, 0x0A] ∧
      ∃ t, exec .signature (probe Regs.s0) = .next t) ∧
    (encode boundary.cfg (.chunk 0 typeIEND [] 0xAE426082) =
        .wire [0, 0, 0, 0, 0x49, 0x45, 0x4E, 0x44, 0xAE, 0x42, 0x60, 0x82] ∧
      ∃ t, exec (.chunk 0 typeIEND [] 0xAE426082) boundary = .next t) :=
  ⟨⟨by decide, _, rfl⟩, by decide, _, rfl⟩

/-- A checksum damaged in bit 0; a type code with the case of its first letter flipped; a payload byte damaged. -/
theorem witness_DamagedRecordIsRefused :
    boundary.regs.atBoundary ∧ [0x68, 0x69].length = (2 : Word).toNat ∧
    (0x7569E6DF : Word) = crc32 (typeTEXt.bytes ++ [0x68, 0x69]) ∧ (0x7569E6DE : Word) ≠ 0x7569E6DF ∧
    (typeTEXt.bytes ++ [0x68, 0x69] = ([] : List Byte) ++ 0x74 :: [0x45, 0x58, 0x74, 0x68, 0x69] ∧
      TypeCode.bytes ⟨0x54, 0x45, 0x58, 0x74⟩ ++ [0x68, 0x69] = ([] : List Byte) ++ 0x54 :: [0x45, 0x58, 0x74, 0x68, 0x69] ∧
      (0x74 : Byte) ≠ 0x54) ∧
    (typeTEXt.bytes ++ [0x68, 0x69] = [0x74, 0x45, 0x58, 0x74, 0x68] ++ 0x69 :: ([] : List Byte) ∧
      typeTEXt.bytes ++ [0x68, 0xE9] = [0x74, 0x45, 0x58, 0x74, 0x68] ++ 0xE9 :: ([] : List Byte) ∧
      (0x69 : Byte) ≠ 0xE9) :=
  ⟨⟨rfl, rfl, rfl⟩, by decide +kernel, by decide +kernel, by decide +kernel, by decide +kernel, by decide +kernel⟩

theorem witness_LetterCaseIsBitFive :
    isAlpha 0x41 = true ∧ isAlpha 0x5A = true ∧ isAlpha 0x61 = true ∧ isAlpha 0x7A = true ∧ isAlpha 0x40 = false ∧
    isAlpha 0x5B = false ∧ isAlpha 0x60 = false ∧ isAlpha 0x7B = false := by decide

theorem witness_FlagsAndValidityOfTypeCode :
    tcValid ⟨0x52, 0x75, 0x53, 0x74⟩ = true ∧ tcValid ⟨0x52, 0x75, 0x73, 0x74⟩ = false := by decide

/-- A state with an event on the port and a command to take. -/
theorem witness_StepKeepsInvariant :
    let s : State := { boundary with evValid := true, ev := ⟨.eoc, 0xAE426082, 0, 0⟩, inputs := [byteCycle 0] }
    s.Inv ∧ ∃ t, step s = .next t :=
  ⟨⟨by decide, by decide⟩, _, rfl⟩

/-- The empty buffer, and a whole container. -/
theorem witness_RunAgreesWithReferenceModel :
    (State.reset.withInputs (bufferCycles [])).startsRun [] ∧
    (State.reset.withInputs (bufferCycles (serContainer Config.standard [chunkIEND]))).startsRun
      (serContainer Config.standard [chunkIEND]) ∧ State.reset.log = [] :=
  ⟨⟨rfl, rfl, rfl⟩, ⟨rfl, rfl, rfl⟩, rfl⟩

/-- The hypotheses of the run, and a run that ends with status 1 (T2: four bytes of the signature). -/
theorem witness_RunEventsMatchGrammar :
    (State.reset.withInputs (bufferCycles [0x89, 0x50, 0x4E, 0x47])).startsRun [0x89, 0x50, 0x4E, 0x47] ∧
    State.reset.log = [] ∧
    (match Sys2Proof.core.run 5 (State.reset.withInputs (bufferCycles [0x89, 0x50, 0x4E, 0x47])) with
      | .next t => State.trace t
      | .fault _ => []
      | .refused _ => []) = [⟨.done, 1, 0, 0⟩] :=
  ⟨⟨rfl, rfl, rfl⟩, rfl, by decide⟩

/-- A first run after reset, and the same buffer after another run, with other inputs to follow. -/
theorem witness_RunsAreIndependent :
    let s₁ := State.reset.withInputs (bufferCycles [0x89])
    let s₂ : State := { State.reset with evValid := true, ev := ⟨.done, 1, 0, 0⟩, inputs := bufferCycles [0x89] ++ [endCycle] }
    s₁.regs = Regs.s0 ∧ s₂.regs = Regs.s0 ∧ s₁.cfg = s₂.cfg ∧ s₁.inputs = bufferCycles [0x89] ++ [] ∧
    s₂.inputs = bufferCycles [0x89] ++ [endCycle] := by decide

theorem witness_IdleCyclesDoNotMatter :
    let s₁ := State.reset.withInputs [idleCycle, byteCycle 0x89, .cycle false false 0x1FF, endCycle]
    let s₂ := State.reset.withInputs [byteCycle 0x89, endCycle]
    s₁.regs = s₂.regs ∧ s₁.cfg = s₂.cfg ∧ s₁.trace = s₂.trace ∧ s₁.inputs.all Input.quiet = true ∧
    s₂.inputs = s₁.inputs.filter Input.isCommand := by decide

theorem witness_SerializedContainerRunsOk :
    (∀ c ∈ [chunkTEXt, chunkIEND], c.sound = true) ∧
    (State.reset.withInputs (bufferCycles (serContainer State.reset.cfg [chunkTEXt, chunkIEND]))).startsRun
      (serContainer State.reset.cfg [chunkTEXt, chunkIEND]) :=
  ⟨by decide +kernel, rfl, rfl, rfl⟩

/-- At the start, at the first boundary (8), inside a record (9), at the end (34 bytes). -/
theorem witness_RecordBoundariesInClosedForm :
    (∀ c ∈ [chunkTEXt, chunkIEND], c.sound = true) ∧
    (∀ n ∈ [0, 8, 9, 34], n ≤ (serContainer State.reset.cfg [chunkTEXt, chunkIEND]).length) ∧
    (State.reset.withInputs (bufferCycles (serContainer State.reset.cfg [chunkTEXt, chunkIEND]))).startsRun
      (serContainer State.reset.cfg [chunkTEXt, chunkIEND]) :=
  ⟨by decide +kernel, by decide, rfl, rfl, rfl⟩

theorem witness_EveryChunkIsSound :
    parseChunk [0, 0, 0, 0, 0x49, 0x45, 0x4E, 0x44, 0xAE, 0x42, 0x60, 0x82, 0xFF] = .ok (chunkIEND, [0xFF]) ∧
    parseContainer Config.standard
      [0x89, 0x50, 0x4E, 0x47, 0x0D, 0x0A, 0x1A, 0x0A, 0, 0, 0, 0, 0x49, 0x45, 0x4E, 0x44, 0xAE, 0x42, 0x60, 0x82] =
      .ok [chunkIEND] ∧
    chunkNew typeTEXt [0x68, 0x69] = some chunkTEXt ∧ chunkTEXt.sound = true := by decide +kernel

theorem witness_ChunkRoundTrip : [0x68, 0x69].length < 2 ^ 32 := by decide

theorem witness_ContainerRoundTrip :
    (∀ c ∈ [chunkTEXt, chunkIEND], c.sound = true) ∧
    parseContainer Config.standard (Config.standard.sig.toList) = .ok [] := by decide +kernel

/-- An absent name, a present one, a removal that finds it; `"IEND"` is `49 45 4E 44`. -/
theorem witness_LookupAppendRemove :
    (chunkIEND.named [0x49, 0x45, 0x4E, 0x44] = true ∧ chunkByType [chunkTEXt] [0x49, 0x45, 0x4E, 0x44] = none) ∧
    chunkByType [chunkTEXt] [0x74, 0x45, 0x58, 0x74] = some chunkTEXt ∧
    (chunkIEND.named [0x49, 0x45, 0x4E, 0x44] = true ∧
      chunkByType (appendChunk [chunkTEXt] chunkIEND) [0x49, 0x45, 0x4E, 0x44] = some chunkIEND) ∧
    removeChunk [0x49, 0x45, 0x4E, 0x44] [chunkTEXt, chunkIEND] = .ok (chunkIEND, [chunkTEXt]) ∧
    removeChunk [0x49, 0x45, 0x4E, 0x44] [chunkTEXt] = .error .notFound := by decide

end Sys2Proof.Tests
end

section
/-! PROOFS, the family of 10_state.md: the reset state, the invariant of R34 over every step, and a BYTE as the unit
operations it invokes. -/

namespace Sys2Proof

/-! ### The words of a wire record -/

/-- Bytes decoded by the format `CHUNK` are a record (R72). -/
theorem decodeChunk_ok {bs : List Byte} {i : Instr} (h : decodeChunk bs = .ok i) :
    ∃ L T P C, i = .chunk L T P C := by
  unfold decodeChunk at h
  split at h
  · dsimp only at h
    split at h
    · cases h
    · unfold decodeTail at h
      split at h
      · exact ⟨_, _, _, _, (Except.ok.inj h).symm⟩
      · cases h
      · cases h
  · cases h

/-- An instruction decoded from the bytes of a record has bytes for its words (R92). -/
theorem encode_of_decodeWire {cfg : Config} {p : Phase} {cnt : Word} {bs : List Byte} {i : Instr}
    (h : decodeWire cfg p cnt bs = .ok i) : ∃ ws, encode cfg i = .wire ws := by
  rcases decodeWire_ok h with ⟨-, -, rfl, -⟩ | ⟨-, -, hc⟩
  · exact ⟨_, rfl⟩
  · obtain ⟨L, T, P, C, rfl⟩ := decodeChunk_ok hc
    exact ⟨_, rfl⟩

/-! ### The codes of the level outputs -/

theorem Phase.code_injective : Function.Injective Phase.code := by
  intro p q
  cases p <;> cases q <;> decide

theorem Status.code_injective : Function.Injective Status.code :=
  Function.LeftInverse.injective Status.ofCode_code

/-! ### The flags of HDR -/

/-- `TC.FLAGS` and `TC.VALID` together drive all five flag lines (R85, R137). -/
theorem setValid_setFlags (f : BitVec 5) (x : BitVec 4) (v : Bool) :
    setValid (setFlags f x) v = BitVec.ofBool v ++ x := by
  have hx : (f.extractLsb' 4 1 ++ x).extractLsb' 0 4 = x := BitVec.extractLsb'_append_eq_right
  rw [setValid, setFlags, hx]

end Sys2Proof

namespace Sys2Proof.Machine

/-! ### The invariant -/

theorem Regs.legal_s0 : Regs.s0.legal = true := rfl

section
variable {s : State}

/-- The end of a cycle keeps the invariant when the registers written are legal and the event emitted is well formed. -/
theorem State.Inv.commit {r : Regs} {e : Option Event} (h : s.Inv) (hr : r.legal = true)
    (he : ∀ v, e = some v → v.wellFormed = true) : (s.commit r e).Inv := by
  refine ⟨hr, fun v hv => ?_⟩
  rw [State.commit_trace, List.mem_append, Option.mem_toList] at hv
  exact hv.elim (h.2 v) (he v)

theorem State.Inv.withInputs (h : s.Inv) (l : List Input) : (s.withInputs l).Inv := h

theorem State.Inv.driveChk (h : s.Inv) (d : Byte) : (s.driveChk d).Inv := h

theorem State.Inv.idle (h : s.Inv) : s.idle.Inv := h.commit h.1 nofun

theorem State.Inv.resetCycle (h : s.Inv) : s.resetCycle.Inv := h.commit Regs.legal_s0 nofun

theorem State.Inv.acceptByte (h : s.Inv) (d : Byte) : (s.acceptByte d).Inv :=
  (h.driveChk d).commit (byteStep_legal d h.1) fun _ => byteStep_event_wellFormed

theorem State.Inv.acceptEnd (h : s.Inv) : s.acceptEnd.Inv :=
  h.commit Regs.legal_s0 fun _ he => Option.some.inj he ▸ doneEvent_wellFormed _

theorem State.Inv.feed (h : s.Inv) (bs : List Byte) : (s.feed bs).Inv := by
  induction bs generalizing s with
  | nil => exact h
  | cons d rest ih => exact ih (h.acceptByte d)

end

/-- A wire record runs as the `BYTE` steps of its bytes (R51, R71, R72). -/
theorem exec_of_encode_wire {s : State} {i : Instr} {bs : List Byte} (h : encode s.cfg i = .wire bs) :
    exec i s = .next (s.feed bs) := by
  cases i with
  | signature | chunk =>
    cases h
    rfl
  | _ => cases h

/-- Settles O50: each thing a step can do is a number of cycles (idle, reset, `BYTE`, `END`), and every kind of cycle keeps
the invariant. -/
theorem stepKeepsInvariant : Obligations.StepKeepsInvariant := by
  intro s t hs h
  cases step_rule h with
  | nothing => exact hs.idle
  | reset _ _ rest => exact (hs.withInputs rest).resetCycle
  | idle _ rest => exact (hs.withInputs rest).idle
  | byte w rest => exact (hs.withInputs rest).acceptByte _
  | endBuf _ rest => exact (hs.withInputs rest).acceptEnd
  | record _ i rest _ hd _ ht =>
    obtain ⟨ws, hw⟩ := encode_of_decodeWire hd
    rw [exec_of_encode_wire (s := s.withInputs rest) hw, Host.Outcome.next.injEq] at ht
    exact ht ▸ (hs.withInputs rest).feed ws
  | expand bs rest => exact (hs.withInputs rest).withInputs _

/-- Settles O49: `S0` is a state of R34, and no event has been on the port. -/
theorem resetIsLegal : Obligations.ResetIsLegal := by
  have ht : State.reset.trace = [] := rfl
  exact ⟨Regs.legal_s0, by simp [ht]⟩

/-! ### The level outputs -/

theorem State.stPhase_eq_code (s : State) (p : Phase) : s.stPhase = p.code ↔ s.regs.phase = p :=
  Phase.code_injective.eq_iff

theorem State.stErr_eq_code (s : State) (e : Status) : s.stErr = e.code ↔ s.regs.err = e :=
  Status.code_injective.eq_iff

/-- Settles O26: `State.reset` holds `S0`, and each number is the code of one phase or status. -/
theorem resetIsS0 : Obligations.ResetIsS0 :=
  ⟨⟨rfl, rfl, rfl, rfl, rfl, rfl, rfl, rfl⟩, fun s =>
    ⟨⟨s.stPhase_eq_code .sig, s.stPhase_eq_code .len, s.stPhase_eq_code .type, s.stPhase_eq_code .data,
      s.stPhase_eq_code .crc, s.stPhase_eq_code .fail⟩,
    ⟨s.stErr_eq_code .ok, s.stErr_eq_code .badSignature, s.stErr_eq_code .truncated,
      s.stErr_eq_code .checksumMismatch⟩⟩⟩

/-! ### A BYTE as its unit operations -/

/-- What the unit operations of `BYTE d` write to the registers (R104, R105, R121, R136). -/
def Regs.unitWrites (r : Regs) (d : Byte) : Regs :=
  match r.phase with
  | .len => r.beShift .len d
  | .type => (r.crcUpd d).tcShift d
  | .data => r.crcUpd d
  | .crc => r.beShift .rx d
  | .sig | .fail => r

/-- The flag lines in the step of `BYTE d`: driven by the step that takes the fourth type byte (R137). -/
def State.unitFlags (s : State) (d : Byte) : BitVec 5 :=
  if s.regs.phase = .type ∧ s.regs.cnt = 3 then hdrFlags (TypeCode.ofWord (shiftIn s.regs.typ d)) else s.ev.f

/-- The state the unit operations of `BYTE d` leave: registers, flag lines, and the comparator's line (R106). -/
def State.runUnits (s : State) (d : Byte) : State :=
  { s with
    regs := s.regs.unitWrites d
    ev := { s.ev with f := s.unitFlags d }
    chkOk := if s.regs.phase = .crc ∧ s.regs.cnt = 3 then s.regs.crcOk d else s.chkOk }

/-- The unit operations of a `BYTE`, one after the other, leave `runUnits`. -/
theorem execAll_decodeUnits (s : State) (d : Byte) :
    execAll (decodeUnits s.regs.phase s.regs.cnt d) s = some (s.runUnits d) := by
  obtain ⟨⟨p, n, len, typ, crc, rx, err⟩, evValid, ev, chkOk, tick, cfg, inputs, log⟩ := s
  cases p with
  | sig | len | data | fail => rfl
  | type =>
    by_cases h3 : n = 3
    · subst h3
      simp [decodeUnits, execAll, exec, execTcFlags, execTcValid, execCrcUpd, execTcShift, State.runUnits,
        Regs.unitWrites, State.unitFlags, setValid_setFlags, hdrFlags]
    · by_cases h0 : n = 0
      · subst h0
        rfl
      · simp only [decodeUnits, State.runUnits, State.unitFlags, h3, h0, if_false, and_false]
        rfl
  | crc =>
    by_cases h3 : n = 3
    · subst h3
      rfl
    · simp only [decodeUnits, State.runUnits, h3, if_false, and_false]
      rfl

/-- The units write no register of the sequencer (R35). -/
theorem unitWrites_pc (r : Regs) (d : Byte) :
    (r.unitWrites d).phase = r.phase ∧ (r.unitWrites d).cnt = r.cnt ∧ (r.unitWrites d).err = r.err := by
  unfold Regs.unitWrites
  split <;> exact ⟨rfl, rfl, rfl⟩

/-- Beside what its unit operations write, a `BYTE` writes the sequencer's registers only (R35, R151 to R160). -/
theorem ByteRule.regs_eq_unitWrites {cfg : Config} {r : Regs} {d : Byte} {out : Regs × Option Event} (rule : ByteRule cfg r d out)
    (h : r.legal = true) : ∃ p n e, out.1 = { r.unitWrites d with phase := p, cnt := n, err := e } := by
  rw [Regs.unitWrites, ← effPhase_of_legal h]
  cases rule with
  | r151last hp | r151 hp | r152 hp | r153last hp | r153 hp | r154 hp | r155empty hp | r155 hp | r156last hp | r156 hp
  | r157 hp | r158 hp | r159 hp | r160 hp =>
    rw [hp]
    exact ⟨_, _, _, rfl⟩

/-- An `HDR` leaves on the fourth type byte, with the flags of the new type code (R155). -/
theorem ByteRule.hdr_flags {cfg : Config} {r : Regs} {d : Byte} {out : Regs × Option Event} {e : Event}
    (rule : ByteRule cfg r d out) (he : out.2 = some e) (hk : e.kind = .hdr) :
    r.phase = .type ∧ r.cnt = 3 ∧ e.f = hdrFlags (TypeCode.ofWord (shiftIn r.typ d)) := by
  cases rule with
  | r155empty hp hc | r155 hp hc =>
    cases he
    exact ⟨(legal_of_effPhase hp nofun).2, hc, rfl⟩
  | _ => cases he <;> cases hk

/-- On the fourth checksum byte the comparator selects R158 or R159. -/
theorem byteStep_lastChecksum (cfg : Config) {r : Regs} (d : Byte) (hp : r.effPhase = .crc) (hc : r.cnt = 3) :
    byteStep cfg r d =
      if r.crcOk d then ((r.beShift .rx d).setPc .len 0, some ⟨.eoc, shiftIn r.rx d, 0, 0⟩)
      else ((r.beShift .rx d).raise .checksumMismatch, none) := by
  simp only [byteStep, hp, hc, if_true]
  rfl

/-- Settles O37: the unit operations write the data registers, the sequencer writes `phase`, `cnt` and `err`. -/
theorem byteIsItsUnitOperations : Obligations.ByteIsItsUnitOperations := by
  intro s d h
  have rule := byteStep_rule s.cfg s.regs d
  have hphase := effPhase_of_legal h
  obtain ⟨p, n, e, hregs⟩ := rule.regs_eq_unitWrites h
  obtain ⟨hp, hn, he⟩ := unitWrites_pc s.regs d
  have hchk : (s.acceptByte d).chkOk = (s.runUnits d).chkOk := by
    rw [State.acceptByte_chkOk, hphase]
    rfl
  refine ⟨s.acceptByte d, s.runUnits d, rfl, execAll_decodeUnits s d, ?len, ?typ, ?crc, ?rx, hchk, hp, hn, he, ?flags,
    ?select⟩
  case len | typ | crc | rx =>
    rw [State.acceptByte_regs, hregs]
    rfl
  case flags =>
    intro v hv hk
    rw [State.acceptByte_event] at hv
    obtain ⟨htype, hc, hf⟩ := rule.hdr_flags hv hk
    exact hf.trans (if_pos ⟨htype, hc⟩).symm
  case select =>
    intro hcrc hc
    have herr : s.regs.err = .ok := err_of_legal h (by rw [hcrc]; nofun)
    have hrx : (s.runUnits d).regs.rx = shiftIn s.regs.rx d := by
      simp only [State.runUnits, Regs.unitWrites, hcrc]
      rfl
    have hstep := byteStep_lastChecksum s.cfg d (hphase.trans hcrc) hc
    rw [← hchk, State.acceptByte_chkOk, if_pos ⟨hphase.trans hcrc, hc⟩, State.acceptByte_regs, State.acceptByte_event,
      hstep, hrx]
    constructor <;> intro hk <;> rw [hk]
    · exact ⟨rfl, rfl, herr, rfl⟩
    · exact ⟨rfl, rfl, rfl, rfl⟩

end Sys2Proof.Machine
end

section
/-! PROOFS, the family of 20_memory.md: the buffer is read one byte per command. -/

namespace Sys2Proof.Machine

/-- Bytes presented as `BYTE` commands, one per cycle, are fed in order (R51, R54), and what the host presents after them
stays. -/
theorem reaches_byteCycles (s : State) (bs : List Byte) (rest : List Input) :
    Reaches bs.length (s.withInputs (bs.map byteCycle ++ rest)) ((s.feed bs).withInputs rest) := by
  induction bs generalizing s with
  | nil => exact reaches_zero (s.withInputs rest)
  | cons d ds ih => exact reaches_succ (step_byteCycle s d (ds.map byteCycle ++ rest)) (ih (s.acceptByte d))

/-- Settles O43: a record runs as the fed bytes of its encoding, and so do the cycles that present those bytes. -/
theorem wireRecordIsItsByteCommands : Obligations.WireRecordIsItsByteCommands := by
  intro s t i bs hw h
  rw [exec_of_encode_wire hw, Host.Outcome.next.injEq] at h
  have hinputs : (s.feed bs).withInputs s.inputs = t := by rw [← h, ← State.feed_withInputs, State.withInputs_same]
  exact hinputs ▸ reaches_byteCycles s bs s.inputs

end Sys2Proof.Machine
end

section
/-! PROOFS, the family of 30_encoding.md: the command word, the wire records and the event word decode and encode to one
another, a unit operation is told apart by phase and count, and a step runs what is decoded. -/

namespace Sys2Proof

/-! ### The command word (R80 to R83) -/

/-- `cmd = {cmd[8], cmd[7:0]}` (R80). -/
theorem cmd_eq_op_append_byte (w : BitVec 9) : w = BitVec.ofBool (w.getLsbD 8) ++ w.extractLsb' 0 8 := by
  have hop : BitVec.ofBool (w.getLsbD 8) = w.extractLsb' 8 1 := by
    apply BitVec.eq_of_getLsbD_eq
    intro i hi
    simp [Nat.lt_one_iff.mp hi]
  rw [hop]
  exact (BitVec.extractLsb'_append_extractLsb' (w := 1) (len := 8)).symm

/-- The mask `0x100` selects the operation bit (R81, R82). -/
theorem getLsbD_of_and_opMask {w m : BitVec 9} (h : w &&& 0x100 = m) : w.getLsbD 8 = m.getLsbD 8 := by
  rw [← h, BitVec.getLsbD_and]
  exact (Bool.and_true _).symm

/-- Encoding a decoded command gives its word back, but for the byte `END` ignores (R81, R82). -/
theorem encode_decodeCmd (cfg : Config) (w : BitVec 9) :
    encode cfg (decodeCmd w) = .cmd w ∨ (decodeCmd w = .endBuf ∧ ∃ x : Byte, w = 1#1 ++ x) := by
  have hw := cmd_eq_op_append_byte w
  rcases Machine.decodeCmd_cases w with ⟨h8, hd⟩ | ⟨h8, hd⟩ <;> rw [h8] at hw
  · exact .inr ⟨hd, w.extractLsb' 0 8, hw⟩
  · exact .inl (hd ▸ congrArg Words.cmd hw.symm)

/-- A command is well formed, whatever its word (R83). -/
theorem decodeCmd_wellFormed (w : BitVec 9) : (decodeCmd w).wellFormed = true := by
  rcases Machine.decodeCmd_cases w with ⟨-, hd⟩ | ⟨-, hd⟩ <;> rw [hd] <;> rfl

/-! ### The event word (R84, R89) -/

/-- Four fields put one after the other are read back at their places. -/
theorem extract_of_append {j k m n : Nat} (x : BitVec j) (a : BitVec k) (b : BitVec m) (f : BitVec n) :
    (x ++ a ++ b ++ f).extractLsb' (k + m + n) j = x ∧ (x ++ a ++ b ++ f).extractLsb' (m + n) k = a ∧
      (x ++ a ++ b ++ f).extractLsb' n m = b ∧ (x ++ a ++ b ++ f).extractLsb' 0 n = f := by
  simp [BitVec.extractLsb'_append_eq_of_le, BitVec.extractLsb'_append_eq_right]

/-- The fields of an event's word, each at its place (R84). -/
theorem Event.word_fields (e : Event) :
    e.word.extractLsb' 69 2 = e.kind.code ∧ e.word.extractLsb' 37 32 = e.a ∧
      e.word.extractLsb' 5 32 = e.b ∧ e.word.extractLsb' 0 5 = e.f :=
  extract_of_append e.kind.code e.a e.b e.f

@[simp] theorem Event.ofWord_word (e : Event) : Event.ofWord e.word = e := by
  obtain ⟨hkind, ha, hb, hf⟩ := e.word_fields
  rw [Event.ofWord, hkind, ha, hb, hf, EvKind.ofCode_code]

@[simp] theorem Event.word_ofWord (w : BitVec 71) : (Event.ofWord w).word = w := by
  have hka : w.extractLsb' 69 2 ++ w.extractLsb' 37 32 = w.extractLsb' 37 34 :=
    BitVec.extractLsb'_append_extractLsb'_eq_extractLsb' rfl
  have hkab : w.extractLsb' 37 34 ++ w.extractLsb' 5 32 = w.extractLsb' 5 66 :=
    BitVec.extractLsb'_append_extractLsb'_eq_extractLsb' rfl
  have hkabf : w.extractLsb' 5 66 ++ w.extractLsb' 0 5 = w :=
    BitVec.extractLsb'_append_extractLsb' (w := 66) (len := 5)
  rw [Event.word, Event.ofWord, EvKind.code_ofCode, hka, hkab, hkabf]

@[simp] theorem encode_toInstr (cfg : Config) (e : Event) : encode cfg e.toInstr = .evt e.word := by
  obtain ⟨k, a, b, f⟩ := e
  cases k <;> rfl

/-- The word of an event decodes to the event's instruction, wherever the block stands (R84, R89). -/
@[simp] theorem decode_evt_word (cfg : Config) (p : Phase) (cnt : Word) (e : Event) :
    decode cfg p cnt (.evt e.word) = .ok e.toInstr := by
  rw [decode, Event.ofWord_word]

/-! ### The bytes of a record (R72, R74) -/

/-- The bytes of the value of four bytes (R120). -/
theorem be32Bytes_be32 (b0 b1 b2 b3 : Byte) : be32Bytes (be32 b0 b1 b2 b3) = [b0, b1, b2, b3] := by
  obtain ⟨h0, h1, h2, h3⟩ := Machine.bytes_of_be32 b0 b1 b2 b3
  rw [be32Bytes, h0, h1, h2, h3]

theorem decodeTail_ok_iff {L : Word} {T : TypeCode} {P bs : List Byte} {i : Instr} :
    decodeTail L T P bs = .ok i ↔ ∃ C, i = .chunk L T P C ∧ bs = be32Bytes C := by
  constructor
  · intro h
    unfold decodeTail at h
    split at h
    · exact ⟨_, (Except.ok.inj h).symm, (be32Bytes_be32 _ _ _ _).symm⟩
    · cases h
    · cases h
  · rintro ⟨C, rfl, rfl⟩
    rw [be32Bytes, decodeTail, Machine.be32_of_bytes]

/-- What the format `CHUNK` accepts: exactly the bytes of a record whose payload has its declared length (R72). -/
theorem decodeChunk_ok_iff {bs : List Byte} {i : Instr} :
    decodeChunk bs = .ok i ↔
      ∃ L T P C, i = .chunk L T P C ∧ P.length = L.toNat ∧ bs = chunkBytes L T P C := by
  constructor
  · intro h
    unfold decodeChunk at h
    split at h
    · next l0 l1 l2 l3 t0 t1 t2 t3 rest =>
      dsimp only at h
      split at h
      · cases h
      · next hlen =>
        obtain ⟨C, rfl, htail⟩ := decodeTail_ok_iff.mp h
        refine ⟨_, _, _, C, rfl, List.length_take_of_le (Nat.le_of_not_lt hlen), ?_⟩
        rw [chunkBytes, be32Bytes_be32, ← htail, List.append_assoc, List.take_append_drop]
        rfl
    · cases h
  · rintro ⟨L, T, P, C, rfl, hlen, rfl⟩
    have hshort : ¬ (P ++ be32Bytes C).length < L.toNat := by
      rw [List.length_append, hlen]
      omega
    simp only [chunkBytes, be32Bytes, TypeCode.bytes, List.cons_append, List.nil_append, decodeChunk,
      Machine.be32_of_bytes]
    rw [← be32Bytes, if_neg hshort, List.take_left' hlen, List.drop_left' hlen]
    exact decodeTail_ok_iff.mpr ⟨C, rfl, rfl⟩

/-- Encoding a decoded record gives its bytes back, and the record is well formed (R71, R72, R75). -/
theorem encode_decodeWire {cfg : Config} {p : Phase} {cnt : Word} {bs : List Byte} {i : Instr}
    (h : decodeWire cfg p cnt bs = .ok i) : encode cfg i = .wire bs ∧ i.wellFormed = true := by
  rcases decodeWire_ok h with ⟨-, -, rfl, rfl⟩ | ⟨-, -, hc⟩
  · exact ⟨rfl, rfl⟩
  · obtain ⟨L, T, P, C, rfl, hlen, rfl⟩ := decodeChunk_ok_iff.mp hc
    exact ⟨rfl, decide_eq_true hlen⟩

/-! ### The round trips -/

/-- Settles O4: one round trip for each of the three kinds of words. -/
theorem decodeEncodeRoundTrip : Obligations.DecodeEncodeRoundTrip := by
  intro cfg i hwf hunit
  cases i with
  | byte d => exact congrArg Except.ok (decodeCmd_byteWord d)
  | endBuf => exact congrArg Except.ok decodeCmd_endWord
  | signature => exact if_pos rfl
  | chunk L T P C => exact decodeChunk_ok_iff.mpr ⟨L, T, P, C, rfl, of_decide_eq_true hwf, rfl⟩
  | hdr a b f => exact decode_evt_word cfg _ _ ⟨.hdr, a, b, f⟩
  | pay a b f => exact decode_evt_word cfg _ _ ⟨.pay, a, b, f⟩
  | eoc a b f => exact decode_evt_word cfg _ _ ⟨.eoc, a, b, f⟩
  | done a b f => exact decode_evt_word cfg _ _ ⟨.done, a, b, f⟩
  | crcInit | crcUpd | crcChk | beShift | tcShift | tcFlags | tcValid => exact absurd rfl hunit

/-- Settles O3: the fields are read at their places, and put together again in order. -/
theorem eventWordLayout : Obligations.EventWordLayout := by
  refine ⟨fun e => ?_, Event.word_ofWord⟩
  obtain ⟨hkind, ha, hb, hf⟩ := e.word_fields
  exact ⟨hkind, ha, hb, hf, e.ofWord_word⟩

/-- Settles O5: only a command word can lose bits, those `END` ignores. -/
theorem encodeDecodeRoundTrip : Obligations.EncodeDecodeRoundTrip := by
  intro cfg p cnt w i h
  cases w with
  | cmd w =>
    cases h
    refine ⟨?_, fun _ => decodeCmd_wellFormed w⟩
    exact (encode_decodeCmd cfg w).imp_right fun ⟨hend, x, hx⟩ => ⟨hend, x, congrArg Words.cmd hx⟩
  | wire bs =>
    obtain ⟨hbytes, hwf⟩ := encode_decodeWire h
    exact ⟨.inl hbytes, fun _ => hwf⟩
  | evt w =>
    cases h
    exact ⟨.inl (by rw [encode_toInstr, Event.word_ofWord]), fun hevt => absurd (Event.toInstr_format _) hevt⟩

/-! ### The unit operations of a BYTE (R92) -/

/-- Which unit operations `BYTE d` invokes, each with the phase and the count of its row (R92, R104 to R106, R121, R136,
R137). -/
theorem mem_decodeUnits {p : Phase} {cnt : Word} {d : Byte} {u : Instr} :
    u ∈ decodeUnits p cnt d ↔
      (u = .beShift .len d ∧ p = .len) ∨ (u = .beShift .rx d ∧ p = .crc) ∨ (u = .tcShift d ∧ p = .type) ∨
      (u = .crcUpd d ∧ (p = .type ∨ p = .data)) ∨ (u = .crcInit d ∧ p = .type ∧ cnt = 0) ∨
      (u = .crcChk d ∧ p = .crc ∧ cnt = 3) ∨ (u = .tcFlags d ∧ p = .type ∧ cnt = 3) ∨
      (u = .tcValid d ∧ p = .type ∧ cnt = 3) := by
  cases p with
  | sig | len | data | fail => simp [decodeUnits]
  | type | crc =>
    simp only [decodeUnits, List.mem_append, List.mem_ite_nil_right, List.mem_cons, List.not_mem_nil, or_false,
      reduceCtorEq]
    tauto

/-- Settles O6: each row's operand form occurs once among the unit operations, with its own phase and count. -/
theorem unitOpsCarryTheBytePattern : Obligations.UnitOpsCarryTheBytePattern := by
  intro cfg p cnt d
  refine ⟨fun u hu => ?_, ?_, ?_, ?_, ?_, ?_, ?_, ?_, ?_⟩
  · rcases mem_decodeUnits.mp hu with
        ⟨rfl, -⟩ | ⟨rfl, -⟩ | ⟨rfl, -⟩ | ⟨rfl, -⟩ | ⟨rfl, -⟩ | ⟨rfl, -⟩ | ⟨rfl, -⟩ | ⟨rfl, -⟩ <;>
      exact ⟨rfl, rfl⟩
  all_goals simp [mem_decodeUnits]

/-! ### Words written out from the spec -/

/-- Settles O1: fixed words, evaluated. -/
theorem sampleWordsDecode : Obligations.SampleWordsDecode := by
  refine ⟨?_, ?_, ?_, ?_, ?_, ?_, ?_, ?_, ?_⟩ <;> decide

/-- Settles O2: the mask is bit 8, which the decoder tests. -/
theorem commandWordsMatchMask : Obligations.CommandWordsMatchMask := by
  intro w
  constructor <;> intro hmask <;> have h8 := getLsbD_of_and_opMask hmask
  · refine ⟨w.extractLsb' 0 8, ?_, by rw [decodeCmd, h8]; rfl⟩
    have hw := cmd_eq_op_append_byte w
    rwa [h8] at hw
  · rw [decodeCmd, h8]
    rfl

end Sys2Proof

namespace Sys2Proof.Machine

/-! ### The signature (R71, R151) -/

/-- R151: a byte of the signature that is not the last. -/
theorem byteStep_sig_next (cfg : Config) (len typ crc rx n : Word) (h : n.toNat < 7) :
    byteStep cfg (.inField .sig n len typ crc rx) (cfg.sigByte n) = (.inField .sig (n + 1) len typ crc rx, none) := by
  have hp : (Regs.inField .sig n len typ crc rx).effPhase = .sig :=
    effPhase_of_legal ((legal_sig rfl).mpr ⟨Nat.le_of_lt h, rfl⟩)
  have hne : n ≠ 7 := fun h7 => absurd h (by rw [h7]; decide)
  simp only [byteStep, hp, hne, if_true, if_false]
  rfl

/-- R151: the last byte of the signature. -/
theorem byteStep_sig_last (cfg : Config) (len typ crc rx : Word) :
    byteStep cfg (.inField .sig 7 len typ crc rx) (cfg.sigByte 7) = (.inField .len 0 len typ crc rx, none) :=
  if_pos rfl

/-- The bytes of `SIG` from byte `n` on. -/
theorem sig_drop (cfg : Config) {n : Nat} (h : n ≤ 7) :
    cfg.sig.toList.drop n = cfg.sigByte (BitVec.ofNat 32 n) :: cfg.sig.toList.drop (n + 1) := by
  have hlt : n < cfg.sig.toList.length := by simp; omega
  have hn : (BitVec.ofNat 32 n).toNat = n := Nat.mod_eq_of_lt (by omega)
  rw [List.drop_eq_getElem_cons hlt, Config.sigByte, hn, List.getD_eq_getElem _ _ hlt]

/-- R71: the rest of the signature from byte `n` on leads to the first record boundary, with no event. -/
theorem feed_signature_from (cfg : Config) (len typ crc rx : Word) {n : Nat} (h : n ≤ 7) :
    feedRegs cfg (.inField .sig (BitVec.ofNat 32 n) len typ crc rx) (cfg.sig.toList.drop n) =
      (.inField .len 0 len typ crc rx, []) := by
  induction h using Nat.decreasingInduction with
  | self =>
    have hnil : cfg.sig.toList.drop 8 = [] := List.drop_eq_nil_of_le (by simp)
    rw [sig_drop cfg (Nat.le_refl 7), hnil]
    show feedRegs cfg (.inField .sig 7 len typ crc rx) [cfg.sigByte 7] = _
    simp only [feedRegs, byteStep_sig_last]
    rfl
  | of_succ n hn ih =>
    have hlt : (BitVec.ofNat 32 n).toNat < 7 := by
      rw [BitVec.toNat_ofNat]
      omega
    rw [sig_drop cfg (Nat.le_of_lt hn)]
    simp only [feedRegs, byteStep_sig_next cfg len typ crc rx _ hlt]
    rw [show BitVec.ofNat 32 n + 1 = BitVec.ofNat 32 (n + 1) from (BitVec.ofNat_add n 1).symm, ih]
    rfl

/-- Settles O39: the eight bytes are fed one by one, from byte 0 on. -/
theorem signatureLeadsToBoundary : Obligations.SignatureLeadsToBoundary := by
  intro s hp hc he
  have hs : s.regs = .inField .sig (BitVec.ofNat 32 0) s.regs.len s.regs.typ s.regs.crc s.regs.rx := by
    rw [Regs.inField, ← hp, ← he, show BitVec.ofNat 32 0 = s.regs.cnt from hc.symm]
  have hfeed : feedRegs s.cfg s.regs s.cfg.sig.toList = ({ s.regs with phase := .len, cnt := 0 }, []) := by
    rw [hs]
    exact feed_signature_from s.cfg s.regs.len s.regs.typ s.regs.crc s.regs.rx (Nat.zero_le 7)
  have hne : s.cfg.sig.toList ≠ [] := List.ne_nil_of_length_pos (by simp)
  obtain ⟨hregs, htrace⟩ := s.feed_spec s.cfg.sig.toList
  rw [hfeed] at hregs htrace
  exact ⟨s.feed s.cfg.sig.toList, rfl, hregs, s.feed_event_none _ hne (congrArg Prod.snd hfeed),
    htrace.trans (List.append_nil _), s.feed_inputs _, s.feed_cfg _⟩

/-! ### A step by what the host presents (R80, R260) -/

section
variable {s : State} {rest : List Input} {w : BitVec 9} {e : Event}

theorem step_of_command (hi : s.inputs = .cycle false true w :: rest) :
    step s = exec (decodeCmd w) (s.withInputs rest) := by
  simp [step, hi]

theorem step_of_record {bs : List Byte} {i : Instr} (hi : s.inputs = .record bs :: rest)
    (hd : decodeWire s.cfg s.regs.phase s.regs.cnt bs = .ok i) : step s = exec i (s.withInputs rest) := by
  simp [step, hi, hd]

theorem stepIdle_of_event (he : s.event = some e) : stepIdle s = exec e.toInstr s := by
  simp [stepIdle, he]

theorem step_of_idleCycle (hi : s.inputs = .cycle false false w :: rest) : step s = stepIdle (s.withInputs rest) := by
  simp [step, hi]

theorem step_of_noInput (hi : s.inputs = []) : step s = stepIdle s := by
  simp [step, hi]

end

/-- Settles O29: the step decodes the command word and the record itself; an event's word decodes to the instruction an idle
cycle runs. -/
theorem stepRunsDecodedInstruction : Obligations.StepRunsDecodedInstruction := by
  intro s rest
  refine ⟨fun w i hi hd => ?command, fun bs i hi hd => step_of_record hi hd, fun w e i hi he hd => ?event,
    fun e i hi he hd => ?lastEvent⟩
  case command =>
    cases hd
    exact step_of_command hi
  case event =>
    rw [decode_evt_word] at hd
    cases hd
    exact (step_of_idleCycle hi).trans (stepIdle_of_event he)
  case lastEvent =>
    rw [decode_evt_word] at hd
    cases hd
    exact (step_of_noInput hi).trans (stepIdle_of_event he)

/-- Settles O38: each of the four is the instruction of the event it names, which is presented and taken. -/
theorem eventIsTakenByTheHost : Obligations.EventIsTakenByTheHost := by
  intro s a b f i k h
  have hi : i = Event.toInstr ⟨k, a, b, f⟩ := by
    rcases h with ⟨rfl, rfl⟩ | ⟨rfl, rfl⟩ | ⟨rfl, rfl⟩ | ⟨rfl, rfl⟩ <;> rfl
  exact ⟨s.present ⟨k, a, b, f⟩, hi ▸ exec_toInstr _ s, rfl, rfl, rfl, rfl, rfl⟩

end Sys2Proof.Machine
end

section
/-! PROOFS, the family of 40_crc32.md: the table form of the checksum and its check values, the three operations of the
checksum unit, and what the comparison decides about a record, a damaged record, and a serialised container. -/

namespace Sys2Proof

/-! ### The table form (R101) -/

/-- A single-bit step is linear over exclusive-or. -/
theorem crcBit_xor (x y : Word) : crcBit (x ^^^ y) = crcBit x ^^^ crcBit y := by
  unfold crcBit
  rw [BitVec.getLsbD_xor, BitVec.ushiftRight_xor_distrib]
  cases x.getLsbD 0 <;> cases y.getLsbD 0
  · rfl
  · exact BitVec.xor_assoc _ _ _
  · show (x >>> 1 ^^^ y >>> 1) ^^^ crcPoly = (x >>> 1 ^^^ crcPoly) ^^^ y >>> 1
    ac_rfl
  · show x >>> 1 ^^^ y >>> 1 = (x >>> 1 ^^^ crcPoly) ^^^ (y >>> 1 ^^^ crcPoly)
    rw [BitVec.xor_comm (y >>> 1), BitVec.xor_assoc, ← BitVec.xor_assoc crcPoly, BitVec.xor_self, BitVec.zero_xor]

theorem crcBits_xor (n : Nat) (x y : Word) : crcBits n (x ^^^ y) = crcBits n x ^^^ crcBits n y := by
  induction n generalizing x y with
  | zero => rfl
  | succ n ih => rw [crcBits, crcBit_xor, ih, crcBits, crcBits]

/-- Where the lowest `n` bits are zero, `n` single-bit steps only shift: the polynomial never enters. -/
theorem crcBits_of_low_zero {n : Nat} {c : Word} (h : ∀ i < n, c.getLsbD i = false) : crcBits n c = c >>> n := by
  induction n generalizing c with
  | zero => exact (BitVec.ushiftRight_zero c).symm
  | succ n ih =>
    have hbit : crcBit c = c >>> 1 := by rw [crcBit, h 0 n.succ_pos]; rfl
    have hlow : ∀ i < n, (c >>> 1).getLsbD i = false := fun i hi => by
      rw [BitVec.getLsbD_ushiftRight]
      exact h (1 + i) (by omega)
    rw [crcBits, hbit, ih hlow, ← BitVec.shiftRight_add, Nat.add_comm]

/-- A word is its low byte and the rest. -/
theorem low_xor_high (x : Word) : (x.extractLsb' 0 8).setWidth 32 ^^^ (x >>> 8) <<< 8 = x := by
  apply BitVec.eq_of_getLsbD_eq
  intro i hi
  by_cases h8 : i < 8
  · simp [h8, hi]
  · simp [h8, hi, show 8 + (i - 8) = i by omega]

theorem high_shiftRight (x : Word) : (x >>> 8) <<< 8 >>> 8 = x >>> 8 := by
  apply BitVec.eq_of_getLsbD_eq
  intro i hi
  by_cases h : 8 + i < 32
  · simp [h]
  · simp [h, BitVec.getLsbD_of_ge x (8 + i) (by omega)]

/-- A byte does not reach the upper 24 bits. -/
theorem byte_shiftRight (b : Byte) : b.setWidth 32 >>> 8 = 0#32 := by
  apply BitVec.eq_of_getLsbD_eq
  intro i hi
  simp

/-- Eight single-bit steps send the low byte through the table and only move the upper 24 bits down. -/
theorem crcBits_eight (x : Word) : crcBits 8 x = crcTab (x.extractLsb' 0 8) ^^^ x >>> 8 := by
  have htab : crcBits 8 ((x.extractLsb' 0 8).setWidth 32) = crcTab (x.extractLsb' 0 8) := by
    simp [crcTab, crcStep]
  have hhigh : crcBits 8 ((x >>> 8) <<< 8) = x >>> 8 := by
    have hlow : ∀ i < 8, ((x >>> 8) <<< 8).getLsbD i = false := fun i hi => by
      rw [BitVec.getLsbD_shiftLeft, decide_eq_true hi, Bool.not_true, Bool.and_false, Bool.false_and]
    rw [crcBits_of_low_zero hlow, high_shiftRight]
  calc crcBits 8 x = crcBits 8 ((x.extractLsb' 0 8).setWidth 32 ^^^ (x >>> 8) <<< 8) := by rw [low_xor_high]
    _ = crcTab (x.extractLsb' 0 8) ^^^ x >>> 8 := by rw [crcBits_xor, htab, hhigh]

theorem crcStepTab_eq_crcStep (c : Word) (b : Byte) : crcStepTab c b = crcStep c b := by
  rw [crcStep, crcBits_eight, BitVec.ushiftRight_xor_distrib, byte_shiftRight, BitVec.xor_zero, crcStepTab]

/-- Settles O44: the printed values are computed; the forms agree on every remainder and byte because a single-bit step is
linear. -/
theorem crcTableFormAgrees : Obligations.CrcTableFormAgrees :=
  ⟨by decide, by decide, by decide, by decide, by decide, by decide, crcStepTab_eq_crcStep⟩

/-- Settles O45: the four checksums are computed. -/
theorem crcCheckValues : Obligations.CrcCheckValues := by
  unfold Obligations.CrcCheckValues
  decide +kernel

/-! ### Detection (R109) -/

/-- R102, R103: the checksum of two parts. -/
theorem crc32_append (s t : List Byte) : crc32 (s ++ t) = crcRaw (crcRaw crcOnes s) t ^^^ crcOnes := by
  rw [crc32, crcRaw_append]

/-- One damaged byte changes the checksum: the step that takes it separates the remainders, and no later one joins them
(R109). -/
theorem crc32_ne_of_byte_ne (pre post : List Byte) {x y : Byte} (h : x ≠ y) :
    crc32 (pre ++ x :: post) ≠ crc32 (pre ++ y :: post) := by
  intro heq
  rw [crc32_append, crc32_append] at heq
  exact h (crcStep_byte_injective _ (crcRaw_injective post (xor_cancel heq)))

end Sys2Proof

namespace Sys2Proof.Machine

/-! ### The three unit operations (R104 to R106) -/

/-- Settles O31: by the meaning of the operation. -/
theorem crcInitIgnoresOldRemainder : Obligations.CrcInitIgnoresOldRemainder := fun _ _ => rfl

/-- Settles O32: by the meaning of the operation and of its working value. -/
theorem crcUpdStepsTheRemainder : Obligations.CrcUpdStepsTheRemainder := fun _ _ => rfl

/-- Settles O33: the line is the comparison of the whole words. -/
theorem crcChkComparesAllBits : Obligations.CrcChkComparesAllBits := by
  rintro s d rx' rfl
  refine ⟨s.regs.crcOk d, rfl, crcOk_iff, ?_⟩
  rw [← Bool.not_eq_true, crcOk_iff, BitVec.eq_of_getLsbD_eq_iff]
  simp only [not_forall, exists_prop]
  rfl

/-! ### A record at a boundary (R112, R153 to R159) -/

theorem Regs.atBoundary.eq_inField {r : Regs} (h : r.atBoundary) : r = .inField .len 0 r.len r.typ r.crc r.rx := by
  obtain ⟨hphase, hcnt, herr⟩ := h
  rw [Regs.inField, ← hphase, ← hcnt, ← herr]

/-- R155, R156: the payload, if there is any, leads from the end of the type code to the checksum field. -/
theorem feed_payload_of_length (cfg : Config) (L typ crc rx : Word) {P : List Byte} (h : P.length = L.toNat) :
    feedRegs cfg (.inField (if L = 0 then .crc else .data) 0 L typ crc rx) P =
      (.inField .crc 0 L typ (crcRaw crc P) rx, payEvents 0 P) := by
  by_cases hL : L = 0
  · obtain rfl : P = [] := List.eq_nil_of_length_eq_zero (by rw [h, hL]; rfl)
    rw [if_pos hL]
    rfl
  · have hP : P ≠ [] := fun hnil => hL (BitVec.eq_of_toNat_eq (by rw [← h, hnil]; rfl))
    rw [if_neg hL]
    exact feed_payload cfg L typ rx P 0 crc hP (by rw [← h]; exact Nat.zero_add _)

/-- A whole record at a boundary: the comparison of its checksum field with `crc32(T ++ P)` decides between `EOC` with the
next boundary and the failure (R153 to R159). -/
theorem feed_record (cfg : Config) {r : Regs} {L : Word} (T : TypeCode) {P : List Byte} (C : Word) (hr : r.atBoundary)
    (h : P.length = L.toNat) :
    feedRegs cfg r (chunkBytes L T P C) =
      if C = crc32 (T.bytes ++ P) then
        (.inField .len 0 L T.pack (crcRaw crcOnes (T.bytes ++ P)) C, hdrEvent L T :: payEvents 0 P ++ [eocEvent C])
      else
        (⟨.fail, 0, L, T.pack, crcRaw crcOnes (T.bytes ++ P), C, .checksumMismatch⟩, hdrEvent L T :: payEvents 0 P) := by
  rw [hr.eq_inField, chunkBytes, List.append_assoc, List.append_assoc, feedRegs_append, feed_length, feedRegs_append,
    feed_type, feedRegs_append, feed_payload_of_length cfg L _ _ _ h, feed_checksum, ← crcRaw_append, crc32]
  split <;> simp

/-- Settles O40: the checksum field holds `crc32(T ++ P)`. -/
theorem goodRecordIsAccepted : Obligations.GoodRecordIsAccepted := by
  intro s L T P C hb hlen hC
  obtain ⟨hregs, htrace⟩ := s.feed_spec (chunkBytes L T P C)
  rw [feed_record s.cfg T C hb hlen, if_pos hC] at hregs htrace
  exact ⟨s.feed (chunkBytes L T P C), rfl, hregs, htrace, s.feed_inputs _, s.feed_cfg _⟩

/-- Settles O46: the damaged checksum field, or the checksum of the damaged bytes, no longer matches the other. -/
theorem damagedRecordIsRefused : Obligations.DamagedRecordIsRefused := by
  intro s L T T' P P' C C' pre post x y hb hlen hC hlen' hdamage
  have hne : C' ≠ crc32 (T'.bytes ++ P') := by
    rcases hdamage with ⟨rfl, rfl, hfield⟩ | ⟨rfl, hold, hnew, hxy⟩
    · exact hC ▸ hfield
    · rw [hC, hold, hnew]
      exact crc32_ne_of_byte_ne pre post hxy
  obtain ⟨hregs, htrace⟩ := s.feed_spec (chunkBytes L T' P' C')
  rw [feed_record s.cfg T' C' hb (hlen'.trans hlen), if_neg hne] at hregs htrace
  exact ⟨s.feed (chunkBytes L T' P' C'), rfl, congrArg Regs.phase hregs, congrArg Regs.err hregs, htrace⟩

/-! ### A serialised container (R175, R202) -/

/-- A sound chunk's record leads from a boundary to a boundary, with the chunk's group of events (R112). -/
theorem feed_serChunk (cfg : Config) {r : Regs} {c : Chunk} (hr : r.atBoundary) (hc : c.sound = true) :
    (feedRegs cfg r (serChunk c)).1.atBoundary ∧ (feedRegs cfg r (serChunk c)).2 = chunkEvents c := by
  rw [Chunk.sound, Bool.and_eq_true, decide_eq_true_iff, decide_eq_true_iff] at hc
  obtain ⟨hlen, hcrc⟩ := hc
  rw [serChunk, feed_record cfg c.type c.crc hr hlen, if_pos hcrc]
  exact ⟨⟨rfl, rfl, rfl⟩, rfl⟩

theorem feed_serRecords (cfg : Config) {r : Regs} {cs : List Chunk} (hr : r.atBoundary)
    (hcs : ∀ c ∈ cs, c.sound = true) :
    (feedRegs cfg r (serRecords cs)).1.atBoundary ∧ (feedRegs cfg r (serRecords cs)).2 = recordsEvents cs := by
  induction cs generalizing r with
  | nil => exact ⟨hr, rfl⟩
  | cons c cs ih =>
    obtain ⟨hc, hrest⟩ := List.forall_mem_cons.mp hcs
    obtain ⟨hnext, hevents⟩ := feed_serChunk cfg hr hc
    rw [serRecords, feedRegs_append, hevents, recordsEvents, (ih hnext hrest).2]
    exact ⟨(ih hnext hrest).1, rfl⟩

/-- From `S0` a serialised container ends at a record boundary (R175). -/
theorem feed_serContainer (cfg : Config) {cs : List Chunk} (hcs : ∀ c ∈ cs, c.sound = true) :
    (feedRegs cfg Regs.s0 (serContainer cfg cs)).1.atBoundary ∧
      (feedRegs cfg Regs.s0 (serContainer cfg cs)).2 = recordsEvents cs := by
  have hsig : feedRegs cfg Regs.s0 cfg.sig.toList = (.inField .len 0 0 0 0 0, []) :=
    feed_signature_from cfg 0 0 0 0 (Nat.zero_le 7)
  rw [serContainer, feedRegs_append, hsig]
  exact feed_serRecords cfg ⟨rfl, rfl, rfl⟩ hcs

/-- R162: at a record boundary `END` reports `OK`. -/
theorem endStatus_of_atBoundary {r : Regs} (h : r.atBoundary) : endStatus r = .ok := by
  rw [h.eq_inField]
  rfl

/-- The cycles of one run feed the buffer and then end the run (R90). -/
theorem reaches_bufferCycles {s : State} {buf : List Byte} {rest : List Input} (hi : s.inputs = bufferCycles buf ++ rest) :
    Reaches (buf.length + 1) s ((s.feed buf).withInputs rest).acceptEnd := by
  have hs : s = s.withInputs (buf.map byteCycle ++ endCycle :: rest) := by
    rw [← List.singleton_append, ← List.append_assoc, ← bufferCycles, ← hi, State.withInputs_same]
  have hend : Reaches 1 ((s.feed buf).withInputs (endCycle :: rest)) ((s.feed buf).withInputs rest).acceptEnd :=
    reaches_succ (step_endCycle _ rest) (reaches_zero _)
  have hrun := reaches_add (reaches_byteCycles s buf (endCycle :: rest)) hend
  rwa [← hs] at hrun

/-- Settles O55: the container ends at a boundary, where `END` reports `OK`. -/
theorem serializedContainerRunsOk : Obligations.SerializedContainerRunsOk := by
  intro s cs hcs ⟨hregs, _, hinputs⟩
  obtain ⟨hboundary, hevents⟩ := feed_serContainer s.cfg hcs
  obtain ⟨hfeed, htrace⟩ := s.feed_spec (serContainer s.cfg cs)
  rw [hregs] at hfeed htrace
  refine ⟨_, reaches_bufferCycles (rest := []) (hinputs.trans (List.append_nil _).symm), rfl, ?_⟩
  rw [State.acceptEnd_trace, State.withInputs_trace, State.withInputs_regs, hfeed, htrace, hevents,
    endStatus_of_atBoundary hboundary]
  rfl

end Sys2Proof.Machine
end

section
/-! PROOFS, the family of 41_be32.md: the byte shifts, one at a time and four in a row. -/

namespace Sys2Proof.Machine

/-- Settles O34: the model's `{r[23:0], d}` is the spec's shift form, in each of the three registers. -/
theorem shiftsEnterAtTheBottom : Obligations.ShiftsEnterAtTheBottom := by
  intro s d
  simp only [← shiftIn_eq_shift]
  exact ⟨rfl, rfl, rfl⟩

/-- Settles O36: the four bytes push out all of what the register held. -/
theorem fourShiftsLeaveBe32 : Obligations.FourShiftsLeaveBe32 := by
  intro s b0 b1 b2 b3
  refine ⟨?len, ?rx, ?typ⟩
  case len =>
    rw [← shiftIn_four s.regs.len]
    rfl
  case rx =>
    rw [← shiftIn_four s.regs.rx]
    rfl
  case typ =>
    rw [TypeCode.pack, ← shiftIn_four s.regs.typ]
    rfl

end Sys2Proof.Machine
end

section
/-! PROOFS, the family of 42_typecode.md: the ranges of the letters and their case bit, the flags of a type code, and
the two unit operations that drive them. -/

namespace Sys2Proof

/-! ### The byte tests (R131) -/

theorem isUpper_iff (b : Byte) : isUpper b = true ↔ 0x41 ≤ b.toNat ∧ b.toNat ≤ 0x5A := by
  rw [isUpper, Bool.and_eq_true, decide_eq_true_iff, decide_eq_true_iff]

theorem isLower_iff (b : Byte) : isLower b = true ↔ 0x61 ≤ b.toNat ∧ b.toNat ≤ 0x7A := by
  rw [isLower, Bool.and_eq_true, decide_eq_true_iff, decide_eq_true_iff]

theorem isAlpha_iff (b : Byte) : isAlpha b = true ↔ isUpper b = true ∨ isLower b = true := by
  rw [isAlpha, Bool.or_eq_true]

/-! ### The case bit (R135) -/

/-- Where two words have no bit in common, their exclusive-or is their sum. -/
theorem xor_eq_add_of_and_eq_zero {n : Nat} {x y : BitVec n} (h : x &&& y = 0) : x ^^^ y = x + y := by
  rw [BitVec.add_eq_or_of_and_eq_zero x y h]
  apply BitVec.eq_of_getLsbD_eq
  intro i _
  have hi : (x.getLsbD i && y.getLsbD i) = false := by
    rw [← BitVec.getLsbD_and, h]
    exact BitVec.getLsbD_zero
  rw [BitVec.getLsbD_xor, BitVec.getLsbD_or]
  cases hx : x.getLsbD i with
  | false => rw [Bool.false_xor, Bool.false_or]
  | true =>
    rw [hx, Bool.true_and] at hi
    rw [hi, Bool.xor_false, Bool.or_false]

/-- Bit 5 of a byte, read off its value. -/
theorem getLsbD_five_iff (b : Byte) : b.getLsbD 5 = true ↔ b.toNat / 32 % 2 = 1 := by
  rw [← BitVec.testBit_toNat, Nat.testBit_eq_decide_div_mod_eq, decide_eq_true_iff]

/-- The upper-case letters lie below `0x60`, in the block of 32 values where bit 5 is clear. -/
theorem getLsbD_five_of_isUpper {b : Byte} (h : isUpper b = true) : b.getLsbD 5 = false := by
  rw [isUpper_iff] at h
  rw [← Bool.not_eq_true, getLsbD_five_iff]
  omega

/-- The lower-case letters lie from `0x60` on, in the block of 32 values where bit 5 is set. -/
theorem getLsbD_five_of_isLower {b : Byte} (h : isLower b = true) : b.getLsbD 5 = true := by
  rw [isLower_iff] at h
  rw [getLsbD_five_iff]
  omega

/-- For a letter, upper case is bit 5 clear. -/
theorem isUpper_iff_of_isAlpha {b : Byte} (h : isAlpha b = true) : isUpper b = true ↔ b.getLsbD 5 = false := by
  refine ⟨getLsbD_five_of_isUpper, fun hbit => ((isAlpha_iff b).mp h).resolve_right fun hlow => ?_⟩
  exact Bool.false_ne_true (hbit.symm.trans (getLsbD_five_of_isLower hlow))

/-- For a letter, lower case is bit 5 set. -/
theorem isLower_iff_of_isAlpha {b : Byte} (h : isAlpha b = true) : isLower b = true ↔ b.getLsbD 5 = true := by
  refine ⟨getLsbD_five_of_isLower, fun hbit => ((isAlpha_iff b).mp h).resolve_left fun hup => ?_⟩
  exact Bool.false_ne_true ((getLsbD_five_of_isUpper hup).symm.trans hbit)

/-- Flipping a clear bit 5 adds 32: no other bit changes, and nothing carries. -/
theorem toNat_xor_caseBit_of_clear {b : Byte} (h : b.getLsbD 5 = false) : (b ^^^ 0x20).toNat = b.toNat + 32 := by
  have hand : b &&& 0x20 = 0 := by
    rw [show (0x20 : Byte) = BitVec.twoPow 8 5 from rfl, BitVec.and_twoPow, h]
    rfl
  have hlt : b.toNat + 32 < 256 := by
    rw [← Bool.not_eq_true, getLsbD_five_iff] at h
    omega
  rw [xor_eq_add_of_and_eq_zero hand, BitVec.toNat_add]
  exact Nat.mod_eq_of_lt hlt

theorem getLsbD_five_xor_caseBit (b : Byte) : (b ^^^ 0x20).getLsbD 5 = !b.getLsbD 5 := by
  rw [BitVec.getLsbD_xor]
  exact Bool.xor_true _

/-- Flipping bit 5 takes the upper-case letters, and no other byte, to the lower-case ones. -/
theorem isLower_xor_caseBit (b : Byte) : isLower (b ^^^ 0x20) = isUpper b := by
  rw [Bool.eq_iff_iff]
  cases hbit : b.getLsbD 5 with
  | false =>
    rw [isLower_iff, isUpper_iff, toNat_xor_caseBit_of_clear hbit]
    omega
  | true =>
    have hflip : (b ^^^ 0x20).getLsbD 5 = false := by rw [getLsbD_five_xor_caseBit, hbit, Bool.not_true]
    exact iff_of_false (fun hlow => Bool.false_ne_true (hflip.symm.trans (getLsbD_five_of_isLower hlow)))
      (fun hup => Bool.false_ne_true ((getLsbD_five_of_isUpper hup).symm.trans hbit))

/-- Flipping bit 5 twice changes nothing, so it takes the lower-case letters to the upper-case ones as well. -/
theorem isUpper_xor_caseBit (b : Byte) : isUpper (b ^^^ 0x20) = isLower b := by
  rw [← isLower_xor_caseBit, BitVec.xor_assoc, BitVec.xor_self, BitVec.xor_zero]

theorem isAlpha_xor_caseBit (b : Byte) : isAlpha (b ^^^ 0x20) = isAlpha b := by
  rw [isAlpha, isAlpha, isUpper_xor_caseBit, isLower_xor_caseBit, Bool.or_comm]

/-- Settles O47: each case is one block of 32 values of bit 5, and flipping the bit moves a letter between them. -/
theorem letterCaseIsBitFive : Obligations.LetterCaseIsBitFive := by
  intro b
  refine ⟨isUpper_iff b, isLower_iff b, rfl, fun h => ?letter, fun h => ?other⟩
  case letter =>
    exact ⟨isUpper_iff_of_isAlpha h, isLower_iff_of_isAlpha h, (isAlpha_xor_caseBit b).trans h, isUpper_xor_caseBit b⟩
  case other => exact (Bool.or_eq_false_iff.mp h).1

/-! ### The flags (R132, R134) -/

/-- Four bits put one after the other are read back at their places. -/
theorem getLsbD_of_four_bits : ∀ b3 b2 b1 b0 : Bool,
    (BitVec.ofBool b3 ++ BitVec.ofBool b2 ++ BitVec.ofBool b1 ++ BitVec.ofBool b0).getLsbD 0 = b0 ∧
      (BitVec.ofBool b3 ++ BitVec.ofBool b2 ++ BitVec.ofBool b1 ++ BitVec.ofBool b0).getLsbD 1 = b1 ∧
      (BitVec.ofBool b3 ++ BitVec.ofBool b2 ++ BitVec.ofBool b1 ++ BitVec.ofBool b0).getLsbD 2 = b2 ∧
      (BitVec.ofBool b3 ++ BitVec.ofBool b2 ++ BitVec.ofBool b1 ++ BitVec.ofBool b0).getLsbD 3 = b3 := by
  decide

/-- Each flag looks at its own byte only (R132). -/
theorem getLsbD_flags4 (T : TypeCode) :
    (flags4 T).getLsbD 0 = isUpper T.t0 ∧ (flags4 T).getLsbD 1 = isUpper T.t1 ∧
      (flags4 T).getLsbD 2 = isUpper T.t2 ∧ (flags4 T).getLsbD 3 = isUpper T.t3 :=
  getLsbD_of_four_bits (isUpper T.t3) (isUpper T.t2) (isUpper T.t1) (isUpper T.t0)

/-- Validity, test by test (R134). -/
theorem tcValid_iff (T : TypeCode) : tcValid T = true ↔
    isAlpha T.t0 = true ∧ isAlpha T.t1 = true ∧ isAlpha T.t2 = true ∧ isAlpha T.t3 = true ∧ isUpper T.t2 = true := by
  simp only [tcValid, Bool.and_eq_true, and_assoc]

/-- Settles O48: flag 2 of a valid type code is the case of its byte 2, which validity tests too. -/
theorem flagsAndValidityOfTypeCode : Obligations.FlagsAndValidityOfTypeCode := by
  intro T
  obtain ⟨hf0, hf1, hf2, hf3⟩ := getLsbD_flags4 T
  refine ⟨hf0, hf1, hf2, hf3, tcValid_iff T, fun hvalid => ?_, rfl, Machine.ofWord_pack T⟩
  obtain ⟨-, -, -, -, hreserved⟩ := (tcValid_iff T).mp hvalid
  exact hf2.trans hreserved

end Sys2Proof

namespace Sys2Proof.Machine

/-! ### The two unit operations (R137) -/

/-- Settles O35: by the meanings of the operations, on the type code `TC.SHIFT` leaves. -/
theorem tcFlagsAndValidDriveEvF : Obligations.TcFlagsAndValidDriveEvF := by
  rintro s d T rfl
  exact ⟨rfl, rfl⟩

end Sys2Proof.Machine
end

section
/-! PROOFS, the family of 43_deserializer.md: `BYTE` and `END` rule by rule, a refused record and what is drained
after it. -/

namespace Sys2Proof.Machine

/-! ### What the two commands leave (R9, R150) -/

/-- `BYTE` goes on with what `byteStep` gives, and frames everything else. -/
theorem steps_byte {s : State} {d : Byte} {r : Regs} {e : Option Event} (h : byteStep s.cfg s.regs d = (r, e)) :
    Steps (.byte d) s r e :=
  ⟨s.acceptByte d, rfl, congrArg Prod.fst h, (s.acceptByte_event d).trans (congrArg Prod.snd h), rfl, rfl, rfl⟩

/-- `END` goes on with `S0` and one `DONE`, and with nothing else (R165). -/
theorem steps_endBuf_iff {s : State} {r : Regs} {e : Option Event} :
    Steps .endBuf s r e ↔ r = Regs.s0 ∧ e = some (doneEvent (endStatus s.regs)) := by
  constructor
  · rintro ⟨t, ht, rfl, rfl, -⟩
    cases ht
    exact ⟨rfl, rfl⟩
  · rintro ⟨rfl, rfl⟩
    exact ⟨s.acceptEnd, rfl, rfl, rfl, rfl, rfl, rfl⟩

/-- `END` reports the status that `endStatus` gives. -/
theorem steps_endBuf {s : State} {st : Status} (h : endStatus s.regs = st) :
    Steps .endBuf s Regs.s0 (some ⟨.done, st.code.setWidth 32, 0, 0⟩) :=
  steps_endBuf_iff.mpr ⟨rfl, by rw [h, doneEvent]⟩

/-! ### The step of `BYTE`, one equation per phase (R150) -/

section
variable (cfg : Config) {r : Regs} (d : Byte)

/-- R151, R152. -/
theorem byteStep_sig (h : r.effPhase = .sig) : byteStep cfg r d =
    if d = cfg.sigByte r.cnt then (if r.cnt = 7 then r.setPc .len 0 else r.setPc .sig (r.cnt + 1), none)
    else (r.raise .badSignature, none) := by
  simp only [byteStep, h]

/-- R153. -/
theorem byteStep_len (h : r.effPhase = .len) : byteStep cfg r d =
    (if r.cnt = 3 then (r.beShift .len d).setPc .type 0 else (r.beShift .len d).setPc .len (r.cnt + 1), none) := by
  simp only [byteStep, h]

/-- R154. -/
theorem byteStep_type (h : r.effPhase = .type) (hc : r.cnt ≠ 3) : byteStep cfg r d =
    (((r.crcUpd d).tcShift d).setPc .type (r.cnt + 1), none) := by
  simp only [byteStep, h, hc, if_false]

/-- R155. -/
theorem byteStep_lastType (h : r.effPhase = .type) (hc : r.cnt = 3) : byteStep cfg r d =
    (((r.crcUpd d).tcShift d).setPc (if r.len = 0 then .crc else .data) 0,
      some ⟨.hdr, r.len, shiftIn r.typ d, hdrFlags (TypeCode.ofWord (shiftIn r.typ d))⟩) := by
  simp only [byteStep, h, hc, if_true]
  split <;> rfl

/-- R156. -/
theorem byteStep_data (h : r.effPhase = .data) : byteStep cfg r d =
    (if r.cnt + 1 = r.len then (r.crcUpd d).setPc .crc 0 else (r.crcUpd d).setPc .data (r.cnt + 1),
      some ⟨.pay, r.cnt, d.setWidth 32, 0⟩) := by
  simp only [byteStep, h]

/-- R157. -/
theorem byteStep_crc (h : r.effPhase = .crc) (hc : r.cnt ≠ 3) : byteStep cfg r d =
    ((r.beShift .rx d).setPc .crc (r.cnt + 1), none) := by
  simp only [byteStep, h, hc, if_false]

/-- R160. -/
theorem byteStep_fail (h : r.effPhase = .fail) : byteStep cfg r d = (r, none) := by
  simp only [byteStep, h]

end

/-- A `FAIL` state selects R160, legal or not (log 2). -/
theorem effPhase_of_fail {r : Regs} (h : r.phase = .fail) : r.effPhase = .fail := by
  rw [Regs.effPhase, h, ite_self]

/-- The working value of the checksum in the type field (R105, R154). -/
theorem crcWorking_of_type {r : Regs} (h : r.phase = .type) :
    r.crcWorking = if r.cnt = 0 then crcOnes else r.crc := by
  simp only [Regs.crcWorking, h, true_and]

/-- The working value of the checksum after the first type byte is the remainder (R105). -/
theorem crcWorking_of_not_first {r : Regs} (h : r.phase ≠ .type ∨ r.cnt ≠ 0) : r.crcWorking = r.crc :=
  if_neg fun hf => h.elim (· hf.1) (· hf.2)

/-- A byte count below 3 is not 3. -/
theorem ne_three_of_lt {c : Word} (h : c < 3) : c ≠ 3 := by
  rintro rfl
  exact absurd h (by decide)

/-- `SIG[n]` in the signature's range (R71). -/
theorem sig_getElem?_eq_some_iff (cfg : Config) {n : Word} (h : n.toNat ≤ 7) {d : Byte} :
    cfg.sig[n.toNat]? = some d ↔ d = cfg.sigByte n := by
  have hlt : n.toNat < 8 := by omega
  rw [Vector.getElem?_eq_getElem hlt, Option.some_inj, eq_comm, Config.sigByte,
    List.getD_eq_getElem _ _ (by simpa using hlt), Vector.getElem_toList]

/-! ### `BYTE`, rule by rule -/

/-- Settles O7: the byte presented is `SIG[cnt]`. -/
theorem byteMatchesSignature : Obligations.ByteMatchesSignature := by
  intro s d h hp hd
  have hle := ((legal_sig hp).mp h).1
  have hstep := byteStep_sig s.cfg d ((effPhase_of_legal h).trans hp)
  rw [if_pos ((sig_getElem?_eq_some_iff s.cfg hle).mp hd)] at hstep
  exact steps_byte hstep

/-- Settles O8: the byte presented is not `SIG[cnt]`. -/
theorem byteDiffersFromSignature : Obligations.ByteDiffersFromSignature := by
  intro s d h hp hd
  have hle := ((legal_sig hp).mp h).1
  have hstep := byteStep_sig s.cfg d ((effPhase_of_legal h).trans hp)
  rw [if_neg fun heq => hd ((sig_getElem?_eq_some_iff s.cfg hle).mpr heq)] at hstep
  exact steps_byte hstep

/-- Settles O9, by the equation of phase `LEN`. -/
theorem byteOfLength : Obligations.ByteOfLength := fun s d h hp =>
  steps_byte (byteStep_len s.cfg d ((effPhase_of_legal h).trans hp))

/-- Settles O10: the first type byte starts the checksum from all ones, the others go on with the remainder. -/
theorem byteOfTypeBeforeTheLast : Obligations.ByteOfTypeBeforeTheLast := by
  intro s d h hp hc
  have hstep := byteStep_type s.cfg d ((effPhase_of_legal h).trans hp) (ne_three_of_lt hc)
  rw [Regs.crcUpd, crcWorking_of_type hp] at hstep
  exact steps_byte hstep

/-- Settles O11: the header's type code and flags are those of the register after this byte. -/
theorem lastByteOfType : Obligations.LastByteOfType := by
  rintro s d typ' h hp hc rfl
  have hne : s.regs.cnt ≠ 0 := by
    rw [hc]
    decide
  have hstep := byteStep_lastType s.cfg d ((effPhase_of_legal h).trans hp) hc
  rw [Regs.crcUpd, crcWorking_of_not_first (.inr hne)] at hstep
  exact steps_byte hstep

/-- Settles O12: every payload byte goes on with the remainder. -/
theorem byteOfPayload : Obligations.ByteOfPayload := by
  intro s d h hp
  have hstep := byteStep_data s.cfg d ((effPhase_of_legal h).trans hp)
  rw [Regs.crcUpd, crcWorking_of_not_first (.inl (by rw [hp]; nofun))] at hstep
  exact steps_byte hstep

/-- Settles O13, by the equation of phase `CRC` before its last byte. -/
theorem byteOfChecksumBeforeTheLast : Obligations.ByteOfChecksumBeforeTheLast := fun s d h hp hc =>
  steps_byte (byteStep_crc s.cfg d ((effPhase_of_legal h).trans hp) (ne_three_of_lt hc))

/-- Settles O14: the comparator's line is up. -/
theorem lastByteOfMatchingChecksum : Obligations.LastByteOfMatchingChecksum := by
  rintro s d rx' h hp hc rfl hk
  have hstep := byteStep_lastChecksum s.cfg d ((effPhase_of_legal h).trans hp) hc
  rw [if_pos (crcOk_iff.mpr hk)] at hstep
  exact steps_byte hstep

/-- Settles O15: the comparator's line is down. -/
theorem lastByteOfWrongChecksum : Obligations.LastByteOfWrongChecksum := by
  rintro s d rx' h hp hc rfl hk
  have hstep := byteStep_lastChecksum s.cfg d ((effPhase_of_legal h).trans hp) hc
  rw [if_neg fun hok => hk (crcOk_iff.mp hok)] at hstep
  exact steps_byte hstep

/-- Settles O16: phase `FAIL` selects R160, in a legal state or not. -/
theorem byteDrainedAfterFailure : Obligations.ByteDrainedAfterFailure := fun s d hp =>
  steps_byte (byteStep_fail s.cfg d (effPhase_of_fail hp))

/-- Settles O18: of the rules of R150's table only R155, R156 and R158 emit, and each is selected in a legal state of its
phase. -/
theorem byteEmitsByRule : Obligations.ByteEmitsByRule := by
  intro s t d e ht he
  cases ht
  rw [State.acceptByte_event] at he
  rw [State.acceptByte_regs]
  have rule := byteStep_rule s.cfg s.regs d
  revert rule he
  generalize byteStep s.cfg s.regs d = out
  intro he rule
  cases rule with
  | r155empty hp hc | r155 hp hc =>
    cases he
    exact .inl ⟨rfl, (legal_of_effPhase hp nofun).2, hc, rfl, rfl, rfl, rfl⟩
  | r156last hp | r156 hp =>
    cases he
    exact .inr (.inl ⟨rfl, (legal_of_effPhase hp nofun).2, rfl, rfl, rfl⟩)
  | r158 hp hc hk =>
    cases he
    obtain ⟨hlegal, hphase⟩ := legal_of_effPhase hp nofun
    have herr : s.regs.err = .ok := err_of_legal hlegal (by rw [hphase]; nofun)
    exact .inr (.inr ⟨rfl, hphase, hc, rfl, rfl, hk, rfl, rfl, rfl, rfl, herr⟩)
  | _ => cases he

/-! ### `END`, rule by rule -/

/-- R161. -/
theorem endStatus_of_sig {r : Regs} (h : r.effPhase = .sig) : endStatus r = .badSignature := by
  simp only [endStatus, h]

/-- R162, R163 in the length field. -/
theorem endStatus_of_len {r : Regs} (h : r.effPhase = .len) :
    endStatus r = if r.cnt = 0 then .ok else .truncated := by
  simp only [endStatus, h]

/-- R164. -/
theorem endStatus_of_fail {r : Regs} (h : r.effPhase = .fail) : endStatus r = r.err := by
  simp only [endStatus, h]

/-- R163: inside a record. -/
theorem endStatus_insideRecord {r : Regs} (h : r.legal = true)
    (hp : (r.phase = .len ∧ r.cnt ≠ 0) ∨ r.phase = .type ∨ r.phase = .data ∨ r.phase = .crc) :
    endStatus r = .truncated := by
  rw [← effPhase_of_legal h] at hp
  rcases hp with ⟨hp, hc⟩ | hp | hp | hp
  · rw [endStatus_of_len hp, if_neg hc]
  all_goals simp only [endStatus, hp]

/-- R34: in a legal `FAIL` state the failure latched is one of the two a `BYTE` takes. -/
theorem err_of_legal_fail {r : Regs} (h : r.legal = true) (hp : r.phase = .fail) :
    r.err = .badSignature ∨ r.err = .checksumMismatch := by
  simp only [Regs.legal, hp, Bool.and_eq_true, Bool.or_eq_true, decide_eq_true_iff] at h
  exact h.2

/-- R162: the only way a run ends `OK`. -/
theorem atBoundary_of_endStatus {r : Regs} (h : r.legal = true) (hst : endStatus r = .ok) :
    r.phase = .len ∧ r.cnt = 0 := by
  have he := effPhase_of_legal h
  cases hp : r.phase with
  | sig => rw [endStatus_of_sig (he.trans hp)] at hst; cases hst
  | len =>
    rw [endStatus_of_len (he.trans hp)] at hst
    split at hst
    · exact ⟨rfl, ‹_›⟩
    · cases hst
  | type | data | crc => rw [endStatus_insideRecord h (by simp [hp])] at hst; cases hst
  | fail =>
    rw [endStatus_of_fail (he.trans hp)] at hst
    rcases err_of_legal_fail h hp with herr | herr <;> exact absurd (herr.symm.trans hst) nofun

theorem doneEvent_injective : Function.Injective doneEvent := by
  intro x y
  cases x <;> cases y <;> decide

/-- Settles O19, by the status of phase `SIG`. -/
theorem endInSignature : Obligations.EndInSignature := fun _ h hp =>
  steps_endBuf (endStatus_of_sig ((effPhase_of_legal h).trans hp))

/-- Settles O20: `END` emits one `DONE`, and its status is `OK` at a boundary only. -/
theorem endOnBoundaryOnlyIsOk : Obligations.EndOnBoundaryOnlyIsOk := by
  intro s h
  refine ⟨fun ⟨hp, hc⟩ => ?boundary, fun hsteps => ?only⟩
  case boundary =>
    have hst := endStatus_of_len ((effPhase_of_legal h).trans hp)
    rw [if_pos hc] at hst
    exact steps_endBuf hst
  case only =>
    have hdone := (steps_endBuf_iff.mp hsteps).2
    exact atBoundary_of_endStatus h (doneEvent_injective (Option.some.inj hdone).symm)

/-- Settles O21: the four places inside a record share one status. -/
theorem endInsideRecord : Obligations.EndInsideRecord := fun _ h hp => steps_endBuf (endStatus_insideRecord h hp)

/-- Settles O22: `END` reports `err`, which R34 bounds. -/
theorem endAfterFailure : Obligations.EndAfterFailure := by
  intro s h hp
  refine ⟨steps_endBuf (endStatus_of_fail (effPhase_of_fail hp)), ?_⟩
  rcases err_of_legal_fail h hp with herr | herr <;> rw [herr]
  · exact .inl rfl
  · exact .inr rfl

/-- Settles O23: whatever `endStatus` says is the status of the one `DONE`. -/
theorem endReturnsToS0 : Obligations.EndReturnsToS0 := fun s => ⟨endStatus s.regs, steps_endBuf rfl⟩

/-! ### A refused record, and the records drained after it -/

/-- Settles O41: the checksum field does not hold `crc32(T ++ P)`. -/
theorem badRecordIsRefused : Obligations.BadRecordIsRefused := by
  intro s L T P C hb hlen hC
  obtain ⟨hregs, htrace⟩ := s.feed_spec (chunkBytes L T P C)
  rw [feed_record s.cfg T C hb hlen, if_neg hC] at hregs htrace
  exact ⟨s.feed (chunkBytes L T P C), rfl, hregs, htrace, s.feed_inputs _, s.feed_cfg _⟩

/-- Settles O42: both wire forms are bytes, and bytes after a failure are drained. -/
theorem recordsAfterFailureAreDrained : Obligations.RecordsAfterFailureAreDrained := by
  intro s L T P C i hp hi
  obtain ⟨bs, hbs⟩ : ∃ bs, encode s.cfg i = .wire bs := by
    rcases hi with rfl | rfl <;> exact ⟨_, rfl⟩
  obtain ⟨hregs, htrace⟩ := s.feed_spec bs
  rw [feedRegs_fail bs hp] at hregs htrace
  exact ⟨s.feed bs, exec_of_encode_wire hbs, hregs, htrace.trans (List.append_nil _), s.feed_inputs bs, s.feed_cfg bs⟩

end Sys2Proof.Machine
end

section
/-! PROOFS, the family of 43_deserializer.md, whole runs: the events of a run depend on its buffer only, they are those
the reference model and the grammar ask for, and the record boundaries lie where the lengths say. -/

namespace Sys2Proof

/-! ### A buffer cut into the fields of a record (R72) -/

@[simp] theorem be32Bytes_length (v : Word) : (be32Bytes v).length = 4 := rfl

@[simp] theorem TypeCode.bytes_length (T : TypeCode) : T.bytes.length = 4 := rfl

theorem be32Bytes_injective : Function.Injective be32Bytes := by
  intro v w h
  simp only [be32Bytes, List.cons.injEq, and_true] at h
  obtain ⟨h3, h2, h1, h0⟩ := h
  rw [← Machine.be32_of_bytes v, h3, h2, h1, h0, Machine.be32_of_bytes]

/-- The width of a record (R72). -/
theorem chunkBytes_length (L : Word) (T : TypeCode) (P : List Byte) (C : Word) :
    (chunkBytes L T P C).length = 12 + P.length :=
  Laws.EncodedFormat.chunk L T P C Config.standard

/-- The first four bytes as a big-endian word, where there are four. -/
theorem exists_be32Bytes_append {bs : List Byte} (h : 4 ≤ bs.length) : ∃ v rest, bs = be32Bytes v ++ rest := by
  match bs, h with
  | b0 :: b1 :: b2 :: b3 :: rest, _ => exact ⟨be32 b0 b1 b2 b3, rest, by rw [be32Bytes_be32]; rfl⟩

/-- The first four bytes as a type code, where there are four. -/
theorem exists_typeBytes_append {bs : List Byte} (h : 4 ≤ bs.length) : ∃ T rest, bs = TypeCode.bytes T ++ rest := by
  match bs, h with
  | b0 :: b1 :: b2 :: b3 :: rest, _ => exact ⟨⟨b0, b1, b2, b3⟩, rest, rfl⟩

/-- What the front of a buffer is, read as a record: cut off inside one of the four fields, or a whole record. -/
inductive RecordFront : List Byte → Prop
  | inLength {bs : List Byte} (h : bs.length < 4) : RecordFront bs
  | inType (L : Word) {bs : List Byte} (h : bs.length < 4) : RecordFront (be32Bytes L ++ bs)
  | inPayload (L : Word) (T : TypeCode) {bs : List Byte} (h : bs.length < L.toNat) :
      RecordFront (be32Bytes L ++ (T.bytes ++ bs))
  | inChecksum (L : Word) (T : TypeCode) {P bs : List Byte} (hP : P.length = L.toNat) (h : bs.length < 4) :
      RecordFront (be32Bytes L ++ (T.bytes ++ (P ++ bs)))
  | whole (L : Word) (T : TypeCode) {P : List Byte} (C : Word) (rest : List Byte) (hP : P.length = L.toNat) :
      RecordFront (chunkBytes L T P C ++ rest)

theorem recordFront (bs : List Byte) : RecordFront bs := by
  rcases Nat.lt_or_ge bs.length 4 with hlen | hlen
  · exact .inLength hlen
  obtain ⟨L, bs, rfl⟩ := exists_be32Bytes_append hlen
  rcases Nat.lt_or_ge bs.length 4 with htyp | htyp
  · exact .inType L htyp
  obtain ⟨T, bs, rfl⟩ := exists_typeBytes_append htyp
  rcases Nat.lt_or_ge bs.length L.toNat with hpay | hpay
  · exact .inPayload L T hpay
  have hP : (bs.take L.toNat).length = L.toNat := List.length_take_of_le hpay
  rw [← List.take_append_drop L.toNat bs]
  rcases Nat.lt_or_ge (bs.drop L.toNat).length 4 with hcrc | hcrc
  · exact .inChecksum L T hP hcrc
  obtain ⟨C, rest, hrest⟩ := exists_be32Bytes_append hcrc
  have hwhole := RecordFront.whole L T C rest hP
  rw [chunkBytes, List.append_assoc, List.append_assoc, List.append_assoc, ← hrest] at hwhole
  exact hwhole

/-! ### The parse of each front (R193) -/

theorem parseChunk_of_short {bs : List Byte} (h : bs.length < 4) : parseChunk bs = .error .truncated := by
  match bs, h with
  | [], _ | [_], _ | [_, _], _ | [_, _, _], _ => rfl

theorem parseChunk_of_shortType (L : Word) {bs : List Byte} (h : bs.length < 4) :
    parseChunk (be32Bytes L ++ bs) = .error .truncated := by
  match bs, h with
  | [], _ | [_], _ | [_, _], _ | [_, _, _], _ => rfl

/-- After length and type code `parse_chunk` takes the payload, if it is there, and compares the checksum. -/
theorem parseChunk_payload (L : Word) (T : TypeCode) (bs : List Byte) :
    parseChunk (be32Bytes L ++ (T.bytes ++ bs)) =
      if bs.length < L.toNat then .error .truncated else parseTail L T (bs.take L.toNat) (bs.drop L.toNat) := by
  rw [be32Bytes, TypeCode.bytes]
  simp only [List.cons_append, List.nil_append, parseChunk, Machine.be32_of_bytes]

/-- `parse_chunk` behind a payload of the declared length. -/
theorem parseChunk_checksum {L : Word} (T : TypeCode) {P : List Byte} (bs : List Byte) (hP : P.length = L.toNat) :
    parseChunk (be32Bytes L ++ (T.bytes ++ (P ++ bs))) = parseTail L T P bs := by
  have hlen : ¬ (P ++ bs).length < L.toNat := by
    rw [List.length_append]
    omega
  rw [parseChunk_payload, if_neg hlen, ← hP, List.take_left, List.drop_left]

theorem parseTail_of_short (L : Word) (T : TypeCode) (P : List Byte) {bs : List Byte} (h : bs.length < 4) :
    parseTail L T P bs = .error .truncated := by
  match bs, h with
  | [], _ | [_], _ | [_, _], _ | [_, _, _], _ => rfl

/-- `parse_chunk` of a whole record: the checksum decides. -/
theorem parseChunk_whole {L : Word} (T : TypeCode) {P : List Byte} (C : Word) (rest : List Byte)
    (hP : P.length = L.toNat) : parseChunk (chunkBytes L T P C ++ rest) =
      if crc32 (T.bytes ++ P) = C then .ok (⟨L, T, P, C⟩, rest) else .error .checksumMismatch := by
  rw [chunkBytes, List.append_assoc, List.append_assoc, List.append_assoc, parseChunk_checksum T _ hP]
  simp only [be32Bytes, List.cons_append, List.nil_append, parseTail, Machine.be32_of_bytes]

/-! ### The loop of `parse_container` (R194) -/

theorem parseRecords_error {fuel : Nat} {bs : List Byte} {st : Status} (hne : bs ≠ [])
    (h : parseChunk bs = .error st) : parseRecords (fuel + 1) bs = .error st := by
  obtain ⟨b, bs, rfl⟩ := List.exists_cons_of_ne_nil hne
  simp only [parseRecords, h]

theorem parseRecords_ok {fuel : Nat} {bs rest : List Byte} {c : Chunk} (hne : bs ≠ [])
    (h : parseChunk bs = .ok (c, rest)) : parseRecords (fuel + 1) bs = (parseRecords fuel rest).map (c :: ·) := by
  obtain ⟨b, bs, rfl⟩ := List.exists_cons_of_ne_nil hne
  simp only [parseRecords, h]
  cases parseRecords fuel rest <;> rfl

theorem parseRecords_nil (fuel : Nat) : parseRecords fuel [] = .ok [] := by
  cases fuel <;> rfl

/-! ### The result and the grammar over a complete group (R170, R173) -/

/-- The `PAY` events of a group append their bytes to its chunk. -/
theorem groupChunks_payEvents (c : Chunk) (n : Word) (P : List Byte) (E : List Event) :
    groupChunks (some c) (payEvents n P ++ E) = groupChunks (some { c with data := c.data ++ P }) E := by
  induction P generalizing c n with
  | nil => simp [payEvents]
  | cons d P ih =>
    have hd : (d.setWidth 32 : Word).extractLsb' 0 8 = d := by
      rw [BitVec.extractLsb'_setWidth_of_le (by decide), BitVec.extractLsb'_eq_self]
    simp only [payEvents, List.cons_append, groupChunks, Option.map_some, hd, ih, List.append_assoc, List.nil_append]

/-- A complete group is its chunk. -/
theorem groupChunks_chunkEvents (c : Chunk) (E : List Event) :
    groupChunks none (chunkEvents c ++ E) = c :: groupChunks none E := by
  simp only [chunkEvents, hdrEvent, eocEvent, List.cons_append, List.append_assoc, groupChunks, groupChunks_payEvents,
    List.nil_append, Machine.ofWord_pack]

/-- A complete group before the events of a run puts its chunk before the run's chunks. -/
theorem result_chunkEvents {c : Chunk} {E : List Event} {res : Except Status (List Chunk)} (h : result E = some res) :
    result (chunkEvents c ++ E) = some (res.map (c :: ·)) := by
  have hne : E ≠ [] := by
    rintro rfl
    cases h
  obtain ⟨e, he⟩ := Option.ne_none_iff_exists'.mp (mt List.getLast?_eq_none_iff.mp hne)
  have hlast : (chunkEvents c ++ E).getLast? = some e := by simp [List.getLast?_append, he]
  simp only [result, he] at h
  simp only [result, hlast, groupChunks_chunkEvents]
  cases hk : e.kind with
  | done =>
    simp only [hk] at h ⊢
    split at h <;> rename_i ha
    · rw [if_pos ha, ← Option.some_inj.mp h, Except.map]
    · rw [if_neg ha, ← Option.some_inj.mp h, Except.map]
  | hdr | pay | eoc =>
    rw [hk] at h
    cases h

end Sys2Proof

namespace Sys2Proof.Machine

/-- The result of a run that ends with the `DONE` of a failure (R170). -/
theorem result_failed (E : List Event) {st : Status} (h : st ≠ .ok) :
    result (E ++ [doneEvent st]) = some (.error st) := by
  simp only [result, List.getLast?_concat, doneEvent]
  cases st with
  | ok => exact absurd rfl h
  | badSignature | truncated | checksumMismatch => rfl

/-- The `PAY` events of a group, counted on from `k` (R173). -/
theorem runShape_payEvents {n : Word} {k : Nat} {P : List Byte} (E : List Event) (h : k + P.length ≤ n.toNat) :
    runShape (some (n, k)) (payEvents (BitVec.ofNat 32 k) P ++ E) = runShape (some (n, k + P.length)) E := by
  induction P generalizing k with
  | nil => rfl
  | cons d P ih =>
    rw [List.length_cons] at h ⊢
    have hk : k < n.toNat := by omega
    have hmod : (BitVec.ofNat 32 k).toNat = k := Nat.mod_eq_of_lt (Nat.lt_trans hk n.isLt)
    have hnext : BitVec.ofNat 32 k + 1 = BitVec.ofNat 32 (k + 1) := (BitVec.ofNat_add k 1).symm
    simp only [payEvents, List.cons_append, runShape, hmod, hk, decide_true, Bool.true_and, hnext]
    rw [ih (by omega), Nat.add_assoc, Nat.add_comm 1]

/-- A complete group leaves the grammar where it was, between two groups. -/
theorem runShape_chunkEvents {c : Chunk} (E : List Event) (h : c.sound = true) :
    runShape none (chunkEvents c ++ E) = runShape none E := by
  rw [Chunk.sound, Bool.and_eq_true, decide_eq_true_iff] at h
  have hlen : 0 + c.data.length = c.length.toNat := (Nat.zero_add _).trans h.1
  rw [chunkEvents, List.append_assoc, List.cons_append]
  show runShape (some (c.length, 0)) (payEvents (BitVec.ofNat 32 0) c.data ++ ([eocEvent c.crc] ++ E)) = _
  rw [runShape_payEvents _ (Nat.le_of_eq hlen), hlen]
  simp only [eocEvent, List.cons_append, List.nil_append, runShape, decide_true, Bool.true_and]

/-- The events of a record the block has not accepted: none before its header, else `HDR` and at most as many `PAY` as it
declares (R173). -/
inductive PartialGroup : List Event → Prop
  | noHeader : PartialGroup []
  | header (L : Word) (T : TypeCode) {P : List Byte} (h : P.length ≤ L.toNat) :
      PartialGroup (hdrEvent L T :: payEvents 0 P)

theorem runShape_partialGroup {E : List Event} (h : PartialGroup E) {st : Status}
    (hst : st = .truncated ∨ st = .checksumMismatch) : runShape none (E ++ [doneEvent st]) = true := by
  cases h with
  | noHeader => rcases hst with rfl | rfl <;> rfl
  | header L T hP =>
    rename_i P
    show runShape (some (L, 0)) (payEvents (BitVec.ofNat 32 0) P ++ [doneEvent st]) = true
    rw [runShape_payEvents _ (by omega)]
    rcases hst with rfl | rfl <;> rfl

/-! ### The events of the rest of a run -/

/-- The events of the rest of a run from registers `r`: those of its bytes, and the `DONE` of its `END` (R9). -/
def runEvents (cfg : Config) (r : Regs) (bs : List Byte) : List Event :=
  (feedRegs cfg r bs).2 ++ [doneEvent (endStatus (feedRegs cfg r bs).1)]

theorem runEvents_append (cfg : Config) (r : Regs) (xs ys : List Byte) :
    runEvents cfg r (xs ++ ys) = (feedRegs cfg r xs).2 ++ runEvents cfg (feedRegs cfg r xs).1 ys := by
  rw [runEvents, runEvents, feedRegs_append, List.append_assoc]

/-- Nothing but `DONE` follows a failure (R160, R164). -/
theorem runEvents_fail (cfg : Config) {r : Regs} (bs : List Byte) (h : r.phase = .fail) :
    runEvents cfg r bs = [doneEvent r.err] := by
  rw [runEvents, feedRegs_fail bs h, endStatus_of_fail (effPhase_of_fail h)]
  rfl

/-- A whole run, whatever was emitted before and is presented after: its events are `runEvents` from `S0`, and it ends in
`S0` (R165, R174). -/
theorem exists_run {s : State} {buf : List Byte} {rest : List Input} (hregs : s.regs = Regs.s0)
    (hinputs : s.inputs = bufferCycles buf ++ rest) :
    ∃ t, Reaches (buf.length + 1) s t ∧ t.trace = s.trace ++ runEvents s.cfg Regs.s0 buf ∧ t.regs = Regs.s0 ∧
      t.inputs = rest := by
  obtain ⟨hfeed, htrace⟩ := s.feed_spec buf
  refine ⟨_, reaches_bufferCycles hinputs, ?_, rfl, rfl⟩
  rw [State.acceptEnd_trace, State.withInputs_trace, State.withInputs_regs, hfeed, htrace, hregs, List.append_assoc,
    runEvents]

/-- The run of a host that presents one buffer and has taken nothing before it. -/
theorem exists_firstRun {s : State} {buf : List Byte} (h : s.startsRun buf) (hlog : s.log = []) :
    ∃ t, Reaches (buf.length + 1) s t ∧ t.trace = runEvents s.cfg Regs.s0 buf ∧ t.regs = Regs.s0 ∧ t.inputs = [] := by
  obtain ⟨hregs, hevent, hinputs⟩ := h
  have htrace : s.trace = [] := by rw [State.trace, hlog, hevent]; rfl
  obtain ⟨t, hreach, ht, hr, hi⟩ := exists_run hregs (hinputs.trans (List.append_nil _).symm)
  exact ⟨t, hreach, by rw [ht, htrace, List.nil_append], hr, hi⟩

/-- Settles O53: `runEvents` looks at the buffer and `SIG` only. -/
theorem runsAreIndependent : Obligations.RunsAreIndependent := by
  intro s₁ s₂ buf rest₁ rest₂ hr₁ hr₂ hcfg hi₁ hi₂
  obtain ⟨t₁, hreach₁, htrace₁, hregs₁, hinputs₁⟩ := exists_run hr₁ hi₁
  obtain ⟨t₂, hreach₂, htrace₂, hregs₂, hinputs₂⟩ := exists_run hr₂ hi₂
  rw [← hcfg] at htrace₂
  exact ⟨_, t₁, t₂, hreach₁, hreach₂, htrace₁, htrace₂, hregs₁, hregs₂, hinputs₁, hinputs₂⟩

/-! ### A run cut off inside a record (R163) -/

section
variable (cfg : Config) {r : Regs}

/-- A byte that is not the last of a four-byte field (R153, R154, R157). -/
theorem byteStep_withinField (d : Byte) (h : r.legal = true) (hp : r.phase = .len ∨ r.phase = .type ∨ r.phase = .crc)
    (hc : r.cnt ≠ 3) :
    (byteStep cfg r d).1.phase = r.phase ∧ (byteStep cfg r d).1.cnt = r.cnt + 1 ∧ (byteStep cfg r d).2 = none := by
  have he := effPhase_of_legal h
  rcases hp with hp | hp | hp
  · rw [byteStep_len cfg d (he.trans hp), if_neg hc]
    exact ⟨hp.symm, rfl, rfl⟩
  · rw [byteStep_type cfg d (he.trans hp) hc]
    exact ⟨hp.symm, rfl, rfl⟩
  · rw [byteStep_crc cfg d (he.trans hp) hc]
    exact ⟨hp.symm, rfl, rfl⟩

/-- Bytes that do not complete a four-byte field: the count moves on, and nothing is emitted (R153, R154, R157). -/
theorem feed_withinField (bs : List Byte) (h : r.legal = true) (hp : r.phase = .len ∨ r.phase = .type ∨ r.phase = .crc)
    (hn : r.cnt.toNat + bs.length < 4) :
    (feedRegs cfg r bs).1.phase = r.phase ∧ (feedRegs cfg r bs).1.cnt.toNat = r.cnt.toNat + bs.length ∧
      (feedRegs cfg r bs).2 = [] := by
  induction bs generalizing r with
  | nil => exact ⟨rfl, rfl, rfl⟩
  | cons d bs ih =>
    rw [List.length_cons] at hn ⊢
    have hc : r.cnt ≠ 3 := fun h3 => by
      have : r.cnt.toNat = 3 := congrArg BitVec.toNat h3
      omega
    obtain ⟨hphase, hcnt, hevent⟩ := byteStep_withinField cfg d h hp hc
    have hnat : (byteStep cfg r d).1.cnt.toNat = r.cnt.toNat + 1 := by
      rw [hcnt]
      exact BitVec.toNat_add_of_lt (show r.cnt.toNat + 1 < 2 ^ 32 by omega)
    obtain ⟨ihphase, ihcnt, ihevents⟩ := ih (byteStep_legal d h) (by rwa [hphase]) (by omega)
    refine ⟨ihphase.trans hphase, ?_, ?_⟩
    · rw [feedRegs, ihcnt, hnat]
      omega
    · rw [feedRegs, ihevents, hevent]
      rfl

/-- Bytes that do not complete the payload: one `PAY` each (R156). -/
theorem feed_withinPayload (bs : List Byte) (h : r.legal = true) (hp : r.phase = .data)
    (hn : r.cnt.toNat + bs.length < r.len.toNat) :
    (feedRegs cfg r bs).1.phase = .data ∧ (feedRegs cfg r bs).2 = payEvents r.cnt bs := by
  induction bs generalizing r with
  | nil => exact ⟨hp, rfl⟩
  | cons d bs ih =>
    rw [List.length_cons] at hn
    have := r.len.isLt
    have hnat : (r.cnt + 1).toNat = r.cnt.toNat + 1 :=
      BitVec.toNat_add_of_lt (show r.cnt.toNat + 1 < 2 ^ 32 by omega)
    have hne : r.cnt + 1 ≠ r.len := fun heq => by
      rw [heq] at hnat
      omega
    have hstep := byteStep_data cfg d ((effPhase_of_legal h).trans hp)
    have hlegal := byteStep_legal (cfg := cfg) d h
    rw [if_neg hne] at hstep
    rw [hstep] at hlegal
    have hrest : (r.cnt + 1).toNat + bs.length < r.len.toNat := by omega
    obtain ⟨ihphase, ihevents⟩ := ih hlegal rfl hrest
    simp only [feedRegs, hstep]
    exact ⟨ihphase, congrArg _ ihevents⟩

/-- A four-byte field cut off, but not the front of the length field: `END` there reports `Truncated`. -/
theorem endStatus_withinField (bs : List Byte) (h : r.legal = true)
    (hp : r.phase = .len ∧ bs ≠ [] ∨ r.phase = .type ∨ r.phase = .crc) (hn : r.cnt.toNat + bs.length < 4) :
    endStatus (feedRegs cfg r bs).1 = .truncated ∧ (feedRegs cfg r bs).2 = [] := by
  obtain ⟨hphase, hcnt, hevents⟩ := feed_withinField cfg bs h (hp.imp_left And.left) hn
  refine ⟨endStatus_insideRecord (feedRegs_legal bs h) ?_, hevents⟩
  rw [hphase]
  rcases hp with ⟨hp, hne⟩ | hp | hp
  · refine .inl ⟨hp, fun h0 => hne (List.eq_nil_of_length_eq_zero ?_)⟩
    have hzero : (feedRegs cfg r bs).1.cnt.toNat = 0 := congrArg BitVec.toNat h0
    omega
  · exact .inr (.inl hp)
  · exact .inr (.inr (.inr hp))

/-- R153 to R155: length and type code of a record lead from a boundary to its payload, or past it if there is none. -/
theorem feed_header (hr : r.atBoundary) (L : Word) (T : TypeCode) :
    feedRegs cfg r (be32Bytes L ++ T.bytes) =
      (.inField (if L = 0 then .crc else .data) 0 L T.pack (crcRaw crcOnes T.bytes) r.rx, [hdrEvent L T]) := by
  rw [hr.eq_inField, feedRegs_append, feed_length, feed_type]
  rfl

/-- At a boundary the bytes that follow are cut off inside a record, which the parse and the block both call truncated, or
hold a whole one. -/
theorem truncated_or_wholeRecord (hr : r.atBoundary) {bs : List Byte} (hne : bs ≠ []) :
    (parseChunk bs = .error .truncated ∧ endStatus (feedRegs cfg r bs).1 = .truncated ∧
      PartialGroup (feedRegs cfg r bs).2) ∨
    ∃ L T P C rest, P.length = L.toNat ∧ bs = chunkBytes L T P C ++ rest := by
  cases recordFront bs with
  | inLength h =>
    rw [hr.eq_inField]
    obtain ⟨hst, hev⟩ := endStatus_withinField cfg (r := .inField .len 0 r.len r.typ r.crc r.rx) bs rfl
      (.inl ⟨rfl, hne⟩) ((Nat.zero_add _).trans_lt h)
    exact .inl ⟨parseChunk_of_short h, hst, hev ▸ .noHeader⟩
  | inType L h =>
    rename_i bs
    obtain ⟨hst, hev⟩ := endStatus_withinField cfg (r := .inField .type 0 L r.typ r.crc r.rx) bs rfl
      (.inr (.inl rfl)) ((Nat.zero_add _).trans_lt h)
    rw [hr.eq_inField, feedRegs_append, feed_length]
    refine .inl ⟨parseChunk_of_shortType L h, hst, ?_⟩
    simp only [hev, List.append_nil]
    exact .noHeader
  | inPayload L T h =>
    rename_i bs
    have hL : L ≠ 0 := by
      rintro rfl
      exact absurd h (Nat.not_lt_zero _)
    have hn : (0 : Word).toNat + bs.length < L.toNat := (Nat.zero_add _).trans_lt h
    have hlegal : (Regs.inField .data 0 L T.pack (crcRaw crcOnes T.bytes) r.rx).legal = true :=
      (legal_data rfl).mpr ⟨Nat.lt_of_le_of_lt (Nat.le_add_right _ _) hn, rfl⟩
    obtain ⟨hphase, hev⟩ := feed_withinPayload cfg bs hlegal rfl hn
    rw [parseChunk_payload, if_pos h, ← List.append_assoc, feedRegs_append, feed_header cfg hr, if_neg hL]
    refine .inl ⟨rfl, endStatus_insideRecord (feedRegs_legal bs hlegal) (.inr (.inr (.inl hphase))), ?_⟩
    simp only [hev]
    exact .header L T (Nat.le_of_lt h)
  | inChecksum L T hP h =>
    rename_i P bs
    obtain ⟨hst, hev⟩ := endStatus_withinField cfg
      (r := .inField .crc 0 L T.pack (crcRaw (crcRaw crcOnes T.bytes) P) r.rx) bs rfl
      (.inr (.inr rfl)) ((Nat.zero_add _).trans_lt h)
    rw [parseChunk_checksum T bs hP, parseTail_of_short L T P h, ← List.append_assoc, feedRegs_append,
      feed_header cfg hr, feedRegs_append, feed_payload_of_length cfg L _ _ _ hP]
    refine .inl ⟨rfl, hst, ?_⟩
    simp only [hev, List.append_nil]
    exact .header L T (Nat.le_of_eq hP)
  | whole L T C rest hP => exact .inr ⟨L, T, _, C, rest, hP, rfl⟩

end

/-! ### A run against the reference model and the grammar (R171, R173) -/

/-- What the rest of a run from a record boundary is, by the result of the reference model: it ends there, the record is
refused, or one more chunk is accepted. -/
inductive RunFromBoundary : Except Status (List Chunk) → List Event → Prop
  | atEnd : RunFromBoundary (.ok []) [doneEvent .ok]
  | refused {st : Status} {E : List Event} (hE : PartialGroup E) (hst : st = .truncated ∨ st = .checksumMismatch) :
      RunFromBoundary (.error st) (E ++ [doneEvent st])
  | accepted {c : Chunk} {res : Except Status (List Chunk)} {E : List Event} (hc : c.sound = true)
      (h : RunFromBoundary res E) : RunFromBoundary (res.map (c :: ·)) (chunkEvents c ++ E)

theorem runFromBoundary_nil (cfg : Config) {r : Regs} (hr : r.atBoundary) (fuel : Nat) :
    RunFromBoundary (parseRecords fuel []) (runEvents cfg r []) := by
  rw [parseRecords_nil, runEvents, feedRegs, endStatus_of_atBoundary hr]
  exact .atEnd

/-- The block and the loop of `parse_container` take the same records one after the other. -/
theorem runFromBoundary (cfg : Config) {r : Regs} (hr : r.atBoundary) {fuel : Nat} {bs : List Byte}
    (h : bs.length ≤ fuel) : RunFromBoundary (parseRecords fuel bs) (runEvents cfg r bs) := by
  induction fuel generalizing r bs with
  | zero =>
    obtain rfl := List.eq_nil_of_length_eq_zero (Nat.le_zero.mp h)
    exact runFromBoundary_nil cfg hr 0
  | succ fuel ih =>
    by_cases hne : bs = []
    · subst hne
      exact runFromBoundary_nil cfg hr _
    rcases truncated_or_wholeRecord cfg hr hne with ⟨hparse, hst, hgroup⟩ | ⟨L, T, P, C, rest, hP, rfl⟩
    · rw [parseRecords_error hne hparse, runEvents, hst]
      exact .refused hgroup (.inl rfl)
    have hparse := parseChunk_whole T C rest hP
    rw [runEvents_append, feed_record cfg T C hr hP]
    by_cases hC : crc32 (T.bytes ++ P) = C
    · rw [if_pos hC] at hparse
      rw [parseRecords_ok hne hparse, if_pos hC.symm]
      have hrest : rest.length ≤ fuel := by
        rw [List.length_append, chunkBytes_length] at h
        omega
      have hsound : Chunk.sound ⟨L, T, P, C⟩ = true := by simp [Chunk.sound, hP, hC]
      exact .accepted hsound (ih ⟨rfl, rfl, rfl⟩ hrest)
    · rw [if_neg hC] at hparse
      rw [parseRecords_error hne hparse, if_neg (Ne.symm hC), runEvents_fail cfg rest rfl]
      exact .refused (.header L T (Nat.le_of_eq hP)) (.inr rfl)

section
variable {res : Except Status (List Chunk)} {E : List Event}

theorem RunFromBoundary.result_eq (h : RunFromBoundary res E) : result E = some res := by
  induction h with
  | atEnd => rfl
  | refused _ hst => exact result_failed _ (by rcases hst with rfl | rfl <;> nofun)
  | accepted _ _ ih => exact result_chunkEvents ih

theorem RunFromBoundary.shape (h : RunFromBoundary res E) : runShape none E = true := by
  induction h with
  | atEnd => rfl
  | refused hE hst => exact runShape_partialGroup hE hst
  | accepted hc _ ih => exact (runShape_chunkEvents _ hc).trans ih

end

/-- The payload of a group holds no `DONE`. -/
theorem kind_of_mem_payEvents {n : Word} {P : List Byte} {e : Event} (h : e ∈ payEvents n P) : e.kind = .pay := by
  induction P generalizing n with
  | nil => cases h
  | cons d P ih =>
    rcases List.mem_cons.mp h with rfl | h
    · rfl
    · exact ih h

theorem kind_ne_done_of_partialGroup {E : List Event} (hE : PartialGroup E) {e : Event} (h : e ∈ E) : e.kind ≠ .done := by
  cases hE with
  | noHeader => cases h
  | header =>
    rcases List.mem_cons.mp h with rfl | h
    · nofun
    · rw [kind_of_mem_payEvents h]
      nofun

theorem kind_ne_done_of_chunkEvents {c : Chunk} {e : Event} (h : e ∈ chunkEvents c) : e.kind ≠ .done := by
  rcases List.mem_append.mp h with h | h
  · rcases List.mem_cons.mp h with rfl | h
    · nofun
    · rw [kind_of_mem_payEvents h]
      nofun
  · rw [List.mem_singleton.mp h]
    nofun

/-- After a matching signature no run reports `BadSignature` (R161 to R164). -/
theorem RunFromBoundary.done_ne_badSignature {res : Except Status (List Chunk)} {E : List Event}
    (h : RunFromBoundary res E) {e : Event} (he : e ∈ E) (hk : e.kind = .done) : e.a ≠ 1 := by
  induction h with
  | atEnd =>
    rw [List.mem_singleton.mp he]
    decide
  | refused hE hst =>
    rcases List.mem_append.mp he with he | he
    · exact absurd hk (kind_ne_done_of_partialGroup hE he)
    · rw [List.mem_singleton.mp he]
      rcases hst with rfl | rfl <;> decide
  | accepted _ _ ih =>
    rcases List.mem_append.mp he with he | he
    · exact absurd hk (kind_ne_done_of_chunkEvents he)
    · exact ih he

/-! ### The signature of a run (R151, R152, R161) -/

theorem runEvents_cons (cfg : Config) (r : Regs) (d : Byte) (bs : List Byte) :
    runEvents cfg r (d :: bs) = (byteStep cfg r d).2.toList ++ runEvents cfg (byteStep cfg r d).1 bs :=
  List.append_assoc _ _ _

/-- Before the last byte of the signature the rules of phase `SIG` are selected (R34). -/
theorem effPhase_sig {len typ crc rx : Word} {n : Nat} (hn : n ≤ 7) :
    (Regs.inField .sig (BitVec.ofNat 32 n) len typ crc rx).effPhase = .sig := by
  have hnat : (BitVec.ofNat 32 n).toNat ≤ 7 := by
    rw [BitVec.toNat_ofNat]
    omega
  exact effPhase_of_legal ((legal_sig rfl).mpr ⟨hnat, rfl⟩)

/-- Where the bytes do not go on with `SIG`, nothing is emitted but `DONE` with `BadSignature`. -/
theorem runEvents_badSignature (cfg : Config) (len typ crc rx : Word) {n : Nat} (hn : n ≤ 7) {bs : List Byte}
    (h : ¬ cfg.sig.toList.drop n <+: bs) :
    runEvents cfg (.inField .sig (BitVec.ofNat 32 n) len typ crc rx) bs = [doneEvent .badSignature] := by
  induction bs generalizing n with
  | nil => rw [runEvents, feedRegs, endStatus_of_sig (effPhase_sig hn)]; rfl
  | cons d bs ih =>
    rw [runEvents_cons]
    by_cases hd : d = cfg.sigByte (BitVec.ofNat 32 n)
    · rw [sig_drop cfg hn, ← hd, List.cons_prefix_cons, not_and] at h
      have hrest := h rfl
      have hlt : n < 7 := by
        refine Nat.lt_of_le_of_ne hn ?_
        rintro rfl
        have hnil : cfg.sig.toList.drop 8 = [] := List.drop_eq_nil_of_le (by simp)
        exact hrest (hnil ▸ List.nil_prefix)
      have hnat : (BitVec.ofNat 32 n).toNat < 7 := by
        rw [BitVec.toNat_ofNat]
        omega
      rw [hd, byteStep_sig_next cfg len typ crc rx _ hnat, show BitVec.ofNat 32 n + 1 = BitVec.ofNat 32 (n + 1) from
        (BitVec.ofNat_add n 1).symm]
      exact ih hlt hrest
    · rw [byteStep_sig cfg d (effPhase_sig hn), if_neg hd]
      exact runEvents_fail cfg bs rfl

/-- A matching signature leads to the first record boundary. -/
theorem feed_signature (cfg : Config) : feedRegs cfg Regs.s0 cfg.sig.toList = (.inField .len 0 0 0 0 0, []) :=
  feed_signature_from cfg 0 0 0 0 (Nat.zero_le 7)

/-- A whole run fails on its signature, in the block and in `parse_container`, or goes on from the first boundary. -/
theorem runFromStart (cfg : Config) (buf : List Byte) :
    (parseContainer cfg buf = .error .badSignature ∧ runEvents cfg Regs.s0 buf = [doneEvent .badSignature]) ∨
      RunFromBoundary (parseContainer cfg buf) (runEvents cfg Regs.s0 buf) := by
  have htake : cfg.sig.toList <+: buf ↔ buf.take 8 = cfg.sig.toList := by
    rw [List.prefix_iff_eq_take, Vector.length_toList, eq_comm]
  by_cases hsig : buf.take 8 = cfg.sig.toList
  · right
    have hrun : runEvents cfg Regs.s0 buf = runEvents cfg (.inField .len 0 0 0 0 0) (buf.drop 8) := by
      conv_lhs => rw [← List.take_append_drop 8 buf, hsig, runEvents_append, feed_signature]
      rfl
    rw [parseContainer, if_pos hsig, hrun]
    exact runFromBoundary cfg ⟨rfl, rfl, rfl⟩ (Nat.le_refl _)
  · left
    rw [parseContainer, if_neg hsig]
    exact ⟨rfl, runEvents_badSignature cfg 0 0 0 0 (Nat.zero_le 7) (mt htake.mp hsig)⟩

/-- Settles O51: `Result` reads the reference model's chunks, or its failure, off the events of the run. -/
theorem runAgreesWithReferenceModel : Obligations.RunAgreesWithReferenceModel := by
  intro s buf hstart hlog
  obtain ⟨t, hreach, htrace, hregs, hinputs⟩ := exists_firstRun hstart hlog
  refine ⟨t, hreach, hregs, hinputs, ?_⟩
  rw [htrace]
  rcases runFromStart s.cfg buf with ⟨hparse, hevents⟩ | hrun
  · rw [hparse, hevents]
    rfl
  · exact hrun.result_eq

/-- Settles O52: a run from the first boundary has the shape and no `BadSignature`; a failed signature is `DONE` alone. -/
theorem runEventsMatchGrammar : Obligations.RunEventsMatchGrammar := by
  intro s buf hstart hlog
  obtain ⟨t, hreach, htrace, -, -⟩ := exists_firstRun hstart hlog
  refine ⟨t, hreach, ?_⟩
  rw [htrace]
  rcases runFromStart s.cfg buf with ⟨-, hevents⟩ | hrun
  · rw [hevents]
    refine ⟨rfl, fun e he _ _ => ?_⟩
    rw [List.mem_singleton.mp he]
  · exact ⟨hrun.shape, fun e he hk ha => absurd ha (hrun.done_ne_badSignature he hk)⟩

/-! ### The record boundaries of a serialised container (R55, R175) -/

/-- Strictly inside a record there is no boundary. -/
theorem not_atBoundary_insideRecord (cfg : Config) {r : Regs} (hr : r.atBoundary) {L : Word} (T : TypeCode)
    {P : List Byte} (C : Word) (hP : P.length = L.toNat) {n : Nat} (hpos : 0 < n) (hlt : n < 12 + P.length) :
    ¬ (feedRegs cfg r ((chunkBytes L T P C).take n)).1.atBoundary := by
  have hlen : ((chunkBytes L T P C).take n).length = n := by
    rw [List.length_take_of_le]
    rw [chunkBytes_length]
    omega
  have hne : (chunkBytes L T P C).take n ≠ [] := List.ne_nil_of_length_pos (by omega)
  intro hb
  rcases truncated_or_wholeRecord cfg hr hne with ⟨-, hst, -⟩ | ⟨L', T', P', C', rest, hP', heq⟩
  · exact absurd (hst.symm.trans (endStatus_of_atBoundary hb)) nofun
  · rw [heq, List.length_append, chunkBytes_length] at hlen
    have hfour := congrArg (List.take 4) heq
    rw [List.take_take, Nat.min_eq_left (by omega)] at hfour
    have hL : L = L' := be32Bytes_injective hfour
    rw [hP', ← hL, ← hP] at hlen
    omega

/-- The offset of record `k` after the signature: the widths of the records before it. -/
def recordOffset (cs : List Chunk) (k : Nat) : Nat := ((cs.take k).map fun c => 12 + c.length.toNat).sum

@[simp] theorem recordOffset_zero (cs : List Chunk) : recordOffset cs 0 = 0 := rfl

@[simp] theorem recordOffset_succ (c : Chunk) (cs : List Chunk) (k : Nat) :
    recordOffset (c :: cs) (k + 1) = 12 + c.length.toNat + recordOffset cs k := by
  simp [recordOffset]

theorem serChunk_length {c : Chunk} (h : c.sound = true) : (serChunk c).length = 12 + c.length.toNat := by
  rw [Chunk.sound, Bool.and_eq_true, decide_eq_true_iff] at h
  rw [serChunk, chunkBytes_length, h.1]

theorem serRecords_length {cs : List Chunk} (h : ∀ c ∈ cs, c.sound = true) :
    (serRecords cs).length = (cs.map fun c => 12 + c.length.toNat).sum := by
  induction cs with
  | nil => rfl
  | cons c cs ih =>
    obtain ⟨hc, hcs⟩ := List.forall_mem_cons.mp h
    rw [serRecords, List.length_append, serChunk_length hc, ih hcs, List.map_cons, List.sum_cons]

/-- The record offsets of a container with one more record at its front. -/
theorem exists_recordOffset_cons_iff {c : Chunk} {cs : List Chunk} {n : Nat} :
    (∃ k, k ≤ (c :: cs).length ∧ n = recordOffset (c :: cs) k) ↔
      n = 0 ∨ ∃ k, k ≤ cs.length ∧ n = 12 + c.length.toNat + recordOffset cs k := by
  constructor
  · rintro ⟨_ | k, hk, rfl⟩
    · exact .inl rfl
    · exact .inr ⟨k, Nat.le_of_succ_le_succ hk, recordOffset_succ c cs k⟩
  · rintro (rfl | ⟨k, hk, rfl⟩)
    · exact ⟨0, Nat.zero_le _, rfl⟩
    · exact ⟨k + 1, Nat.succ_le_succ hk, (recordOffset_succ c cs k).symm⟩

/-- From a boundary, the block is at a boundary again exactly after each whole record. -/
theorem atBoundary_serRecords_iff (cfg : Config) {r : Regs} (hr : r.atBoundary) {cs : List Chunk}
    (hcs : ∀ c ∈ cs, c.sound = true) {n : Nat} (hn : n ≤ (serRecords cs).length) :
    (feedRegs cfg r ((serRecords cs).take n)).1.atBoundary ↔ ∃ k, k ≤ cs.length ∧ n = recordOffset cs k := by
  induction cs generalizing r n with
  | nil =>
    obtain rfl := Nat.le_zero.mp hn
    exact iff_of_true hr ⟨0, Nat.zero_le _, rfl⟩
  | cons c cs ih =>
    obtain ⟨hc, hrest⟩ := List.forall_mem_cons.mp hcs
    have hlen := serChunk_length hc
    rw [exists_recordOffset_cons_iff]
    rw [serRecords] at hn ⊢
    rcases Nat.eq_zero_or_pos n with rfl | hpos
    · exact iff_of_true hr (.inl rfl)
    rcases Nat.lt_or_ge n (12 + c.length.toNat) with hlt | hge
    · rw [List.take_append_of_le_length (by omega)]
      have hdata : c.data.length = c.length.toNat := by
        rw [serChunk, chunkBytes_length] at hlen
        omega
      refine iff_of_false (not_atBoundary_insideRecord cfg hr c.type c.crc hdata hpos (hdata.symm ▸ hlt)) ?_
      rintro (rfl | ⟨k, -, rfl⟩) <;> omega
    · obtain ⟨m, rfl⟩ := Nat.exists_eq_add_of_le hge
      have hm : m ≤ (serRecords cs).length := by
        rw [List.length_append, hlen] at hn
        omega
      rw [← hlen, List.take_length_add_append, feedRegs_append, ih (feed_serChunk cfg hr hc).1 hrest hm, hlen]
      simp only [Nat.add_left_cancel_iff]
      refine (or_iff_right ?_).symm
      omega

/-- From `S0`, the block is at a boundary exactly after the signature and after each whole record (R175). -/
theorem atBoundary_serContainer_iff (cfg : Config) {cs : List Chunk} (hcs : ∀ c ∈ cs, c.sound = true) {n : Nat}
    (hn : n ≤ (serContainer cfg cs).length) :
    (feedRegs cfg Regs.s0 ((serContainer cfg cs).take n)).1.atBoundary ↔
      ∃ k, k ≤ cs.length ∧ n = 8 + recordOffset cs k := by
  have hsig : cfg.sig.toList.length = 8 := Vector.length_toList
  rw [serContainer] at hn ⊢
  rcases Nat.lt_or_ge n 8 with hlt | hge
  · refine iff_of_false (fun hb => ?_) (by rintro ⟨k, -, rfl⟩; omega)
    rw [List.take_append_of_le_length (by omega)] at hb
    have hshort : ¬ cfg.sig.toList <+: cfg.sig.toList.take n := fun hp => by
      have := hp.length_le
      rw [List.length_take] at this
      omega
    have hrun : runEvents cfg Regs.s0 (cfg.sig.toList.take n) = [] ++ [doneEvent .badSignature] :=
      runEvents_badSignature cfg 0 0 0 0 (Nat.zero_le 7) hshort
    rw [runEvents, endStatus_of_atBoundary hb] at hrun
    exact absurd (List.append_inj_right' hrun rfl) (by decide)
  · obtain ⟨m, rfl⟩ := Nat.exists_eq_add_of_le hge
    have hm : m ≤ (serRecords cs).length := by
      rw [List.length_append, hsig] at hn
      omega
    have htake := List.take_length_add_append (l₁ := cfg.sig.toList) (l₂ := serRecords cs) m
    rw [hsig] at htake
    rw [htake, feedRegs_append, feed_signature, atBoundary_serRecords_iff cfg ⟨rfl, rfl, rfl⟩ hcs hm]
    simp only [Nat.add_left_cancel_iff]

/-- Settles O56: after `n` commands the block has been fed the first `n` bytes. -/
theorem recordBoundariesInClosedForm : Obligations.RecordBoundariesInClosedForm := by
  intro s cs n hcs ⟨hregs, _, hinputs⟩ hn
  refine ⟨?boundary, ?length⟩
  case boundary =>
    have hreach := reaches_byteCycles s ((serContainer s.cfg cs).take n) (bufferCycles ((serContainer s.cfg cs).drop n))
    have hs : s.withInputs (((serContainer s.cfg cs).take n).map byteCycle ++
        bufferCycles ((serContainer s.cfg cs).drop n)) = s := by
      rw [bufferCycles, ← List.append_assoc, ← List.map_append, List.take_append_drop, ← bufferCycles, ← hinputs,
        State.withInputs_same]
    rw [hs, List.length_take_of_le hn] at hreach
    refine ⟨_, hreach, rfl, ?_⟩
    rw [State.withInputs_regs, (s.feed_spec _).1, hregs]
    exact atBoundary_serContainer_iff s.cfg hcs hn
  case length =>
    rw [serContainer, List.length_append, serRecords_length hcs, Vector.length_toList]

end Sys2Proof.Machine
end

section
/-! PROOFS, the family of 44_reference_model.md: the parses accept exactly what the serialisations give for sound chunks;
the lookup, append and removal of software. -/

namespace Sys2Proof

/-! ### Sound chunks (R191) -/

theorem Chunk.sound_iff {c : Chunk} :
    c.sound = true ↔ c.data.length = c.length.toNat ∧ c.crc = crc32 (c.type.bytes ++ c.data) := by
  rw [Chunk.sound, Bool.and_eq_true, decide_eq_true_iff, decide_eq_true_iff]

theorem length_data_lt_of_sound {c : Chunk} (h : c.sound = true) : c.data.length < 2 ^ 32 :=
  (Chunk.sound_iff.mp h).1 ▸ c.length.isLt

/-- Length and checksum of a sound chunk are functions of its type and its data. -/
theorem eq_of_sound {c c' : Chunk} (h : c.sound = true) (h' : c'.sound = true) (htype : c.type = c'.type)
    (hdata : c.data = c'.data) : c = c' := by
  obtain ⟨hlen, hcrc⟩ := Chunk.sound_iff.mp h
  obtain ⟨hlen', hcrc'⟩ := Chunk.sound_iff.mp h'
  have hlength : c.length = c'.length := BitVec.eq_of_toNat_eq (by rw [← hlen, ← hlen', hdata])
  have hchecksum : c.crc = c'.crc := by rw [hcrc, hcrc', htype, hdata]
  cases c
  cases c'
  subst hlength htype hdata hchecksum
  rfl

/-- The chunk of a type and of a payload shorter than 2^32 bytes, as `chunk_new` builds it, is sound (R205). -/
theorem sound_ofPayload (T : TypeCode) {P : List Byte} (h : P.length < 2 ^ 32) :
    Chunk.sound ⟨BitVec.ofNat 32 P.length, T, P, crc32 (T.bytes ++ P)⟩ = true :=
  Chunk.sound_iff.mpr ⟨(Nat.mod_eq_of_lt h).symm, rfl⟩

/-- R205: what `chunk_new` gives. -/
theorem chunkNew_eq_some {T : TypeCode} {P : List Byte} {c : Chunk} (h : chunkNew T P = some c) :
    c.sound = true ∧ c.type = T ∧ c.data = P := by
  rw [chunkNew] at h
  split at h
  next hP =>
    obtain rfl := Option.some.inj h
    exact ⟨sound_ofPayload T hP, rfl, rfl⟩
  next => cases h

/-! ### What the parses accept (R193, R194, R201, R202) -/

/-- `parse_chunk` accepts a buffer exactly when it begins with the record of a sound chunk, which it gives with the
remainder. -/
theorem parseChunk_eq_ok_iff {bs rest : List Byte} {c : Chunk} :
    parseChunk bs = .ok (c, rest) ↔ c.sound = true ∧ bs = serChunk c ++ rest := by
  constructor
  · intro h
    cases recordFront bs with
    | inLength hlt => exact nomatch (parseChunk_of_short hlt).symm.trans h
    | inType L hlt => exact nomatch (parseChunk_of_shortType L hlt).symm.trans h
    | inPayload L T hlt =>
      rw [parseChunk_payload, if_pos hlt] at h
      cases h
    | inChecksum L T hP hlt =>
      rw [parseChunk_checksum T _ hP, parseTail_of_short L T _ hlt] at h
      cases h
    | whole L T C rest' hP =>
      rw [parseChunk_whole T C rest' hP] at h
      split at h
      next hC =>
        cases h
        exact ⟨Chunk.sound_iff.mpr ⟨hP, hC.symm⟩, rfl⟩
      next => cases h
  · rintro ⟨hc, rfl⟩
    obtain ⟨hlen, hcrc⟩ := Chunk.sound_iff.mp hc
    rw [serChunk, parseChunk_whole c.type c.crc rest hlen, if_pos hcrc.symm]

theorem serChunk_ne_nil (c : Chunk) : serChunk c ≠ [] :=
  List.ne_nil_of_length_pos (by rw [serChunk, chunkBytes_length]; omega)

/-- The loop of `parse_container` accepts nothing but the records of sound chunks. -/
theorem parseRecords_ok_spec {fuel : Nat} {bs : List Byte} {cs : List Chunk} (h : parseRecords fuel bs = .ok cs) :
    (∀ c ∈ cs, c.sound = true) ∧ bs = serRecords cs := by
  induction fuel, bs using parseRecords.induct generalizing cs with
  | case1 fuel =>
    rw [parseRecords_nil] at h
    cases h
    exact ⟨List.forall_mem_nil _, rfl⟩
  | case2 b bs => cases h
  | case3 fuel b bs st hparse =>
    rw [parseRecords_error (List.cons_ne_nil b bs) hparse] at h
    cases h
  | case4 fuel b bs c rest hparse st hrest ih =>
    rw [parseRecords_ok (List.cons_ne_nil b bs) hparse, hrest] at h
    cases h
  | case5 fuel b bs c rest hparse cs' hrest ih =>
    rw [parseRecords_ok (List.cons_ne_nil b bs) hparse, hrest] at h
    cases h
    obtain ⟨hc, hbs⟩ := parseChunk_eq_ok_iff.mp hparse
    obtain ⟨hcs, rfl⟩ := ih hrest
    exact ⟨List.forall_mem_cons.mpr ⟨hc, hcs⟩, hbs⟩

/-- With as much fuel as there are bytes the loop gives back the chunks of any records. -/
theorem parseRecords_serRecords {fuel : Nat} {cs : List Chunk} (hcs : ∀ c ∈ cs, c.sound = true)
    (hfuel : (serRecords cs).length ≤ fuel) : parseRecords fuel (serRecords cs) = .ok cs := by
  induction cs generalizing fuel with
  | nil => exact parseRecords_nil fuel
  | cons c cs ih =>
    obtain ⟨hc, hrest⟩ := List.forall_mem_cons.mp hcs
    rw [serRecords, List.length_append, Machine.serChunk_length hc] at hfuel
    obtain ⟨fuel, rfl⟩ : ∃ n, fuel = n + 1 := Nat.exists_eq_add_of_le' (by omega)
    have hne : serChunk c ++ serRecords cs ≠ [] := List.append_ne_nil_of_left_ne_nil (serChunk_ne_nil c) _
    rw [serRecords, parseRecords_ok hne (parseChunk_eq_ok_iff.mpr ⟨hc, rfl⟩), ih hrest (by omega)]
    rfl

/-- `parse_container` accepts exactly the serialised containers of sound chunks. -/
theorem parseContainer_eq_ok_iff {cfg : Config} {buf : List Byte} {cs : List Chunk} :
    parseContainer cfg buf = .ok cs ↔ (∀ c ∈ cs, c.sound = true) ∧ buf = serContainer cfg cs := by
  have hsig : cfg.sig.toList.length = 8 := Vector.length_toList
  constructor
  · intro h
    rw [parseContainer] at h
    split at h
    next htake =>
      obtain ⟨hcs, hdrop⟩ := parseRecords_ok_spec h
      exact ⟨hcs, by rw [serContainer, ← htake, ← hdrop, List.take_append_drop]⟩
    next => cases h
  · rintro ⟨hcs, rfl⟩
    rw [parseContainer, serContainer, List.take_left' hsig, if_pos rfl, List.drop_left' hsig]
    exact parseRecords_serRecords hcs (Nat.le_refl _)

/-- Settles O57: each way to make a chunk makes a sound one, and soundness fixes its length and its checksum. -/
theorem everyChunkIsSound : Obligations.EveryChunkIsSound :=
  ⟨fun _ _ _ h => (parseChunk_eq_ok_iff.mp h).1, fun _ _ _ h => (parseContainer_eq_ok_iff.mp h).1,
    fun _ _ _ h => chunkNew_eq_some h,
    fun _ _ h h' htype hdata => ⟨eq_of_sound h h' htype hdata, length_data_lt_of_sound h⟩⟩

/-- Settles O58: the record is that of a sound chunk. -/
theorem chunkRoundTrip : Obligations.ChunkRoundTrip := fun T _ _ h =>
  parseChunk_eq_ok_iff.mpr ⟨sound_ofPayload T h, rfl⟩

/-- Settles O59: the two directions of what `parse_container` accepts. -/
theorem containerRoundTrip : Obligations.ContainerRoundTrip := fun _ =>
  ⟨fun _ hcs => parseContainer_eq_ok_iff.mpr ⟨hcs, rfl⟩, fun _ _ h => (parseContainer_eq_ok_iff.mp h).2.symm⟩

/-! ### Lookup, append and removal (R211 to R214) -/

theorem TypeCode.bytes_injective : Function.Injective TypeCode.bytes := by
  rintro ⟨⟩ ⟨⟩ h
  simpa only [TypeCode.bytes, TypeCode.mk.injEq, List.cons.injEq, and_true] using h

/-- A chunk has a text as its name when that text is the four bytes of its type code (R208). -/
theorem bytes_of_named {text : List Byte} {c : Chunk} (h : c.named text = true) : c.type.bytes = text := by
  rw [Chunk.named, decide_eq_true_iff, typecodeToText] at h
  split at h
  next => exact Option.some.inj h
  next => cases h

theorem named_congr {c c' : Chunk} (text : List Byte) (h : c.type = c'.type) : c.named text = c'.named text := by
  rw [Chunk.named, Chunk.named, h]

/-- R211: the chunk looked up is the first of its name. -/
theorem chunkByType_eq_some_iff {cs : List Chunk} {text : List Byte} {c : Chunk} :
    chunkByType cs text = some c ↔
      c.named text = true ∧ ∃ pre post, cs = pre ++ c :: post ∧ ∀ p ∈ pre, p.named text = false := by
  simp only [chunkByType, List.find?_eq_some_iff_append, Bool.not_eq_true']

/-- A lookup after an append: the appended chunk is found only where there was none before (R212). -/
theorem chunkByType_appendChunk (cs : List Chunk) (c : Chunk) (text : List Byte) :
    chunkByType (appendChunk cs c) text = (chunkByType cs text).or (if c.named text then some c else none) := by
  rw [chunkByType, appendChunk, List.find?_append, List.find?_singleton, chunkByType]

/-- R213: a removal looks the chunk up and erases the first of its name. -/
theorem removeChunk_eq (text : List Byte) (cs : List Chunk) :
    removeChunk text cs =
      (chunkByType cs text).elim (.error .notFound) fun c => .ok (c, cs.eraseP (Chunk.named text)) := by
  induction cs with
  | nil => rfl
  | cons c cs ih =>
    cases hc : c.named text with
    | true => rw [removeChunk, if_pos hc, chunkByType, List.find?_cons_of_pos hc, List.eraseP_cons_of_pos hc]; rfl
    | false =>
      have hneg : ¬ c.named text = true := by rw [hc]; exact Bool.false_ne_true
      rw [removeChunk, if_neg hneg, ih, chunkByType, chunkByType, List.find?_cons_of_neg hneg,
        List.eraseP_cons_of_neg hneg]
      cases cs.find? (Chunk.named text) <;> rfl

theorem removeChunk_eq_notFound_iff {text : List Byte} {cs : List Chunk} :
    removeChunk text cs = .error .notFound ↔ chunkByType cs text = none := by
  rw [removeChunk_eq]
  cases chunkByType cs text <;> simp

theorem removeChunk_ok {text : List Byte} {cs rest : List Chunk} {c : Chunk} (h : removeChunk text cs = .ok (c, rest)) :
    chunkByType cs text = some c ∧ rest = cs.eraseP (Chunk.named text) := by
  rw [removeChunk_eq] at h
  cases hfind : chunkByType cs text with
  | none =>
    rw [hfind] at h
    cases h
  | some found =>
    rw [hfind] at h
    cases h
    exact ⟨rfl, rfl⟩

/-- Erasing the first chunk of a name keeps what stands before and after it, in order. -/
theorem eraseP_named {text : List Byte} {pre : List Chunk} {c : Chunk} (post : List Chunk)
    (hpre : ∀ p ∈ pre, p.named text = false) (hc : c.named text = true) :
    (pre ++ c :: post).eraseP (Chunk.named text) = pre ++ post := by
  rw [List.eraseP_append_right _ fun p hp => Bool.not_eq_true _ ▸ hpre p hp, List.eraseP_cons_of_pos hc]

/-- Settles O60: the lookup is a first match, the append puts its chunk last, the removal erases the first match. -/
theorem lookupAppendRemove : Obligations.LookupAppendRemove := by
  intro cs c text
  refine ⟨?absent, ?present, ?sameType, removeChunk_eq_notFound_iff, ?removed⟩
  case absent =>
    intro hc hnone
    rw [chunkByType_appendChunk, hnone, if_pos hc, Option.none_or]
  case present =>
    intro c' hfind
    rw [chunkByType_appendChunk, hfind, Option.some_or]
    exact ⟨rfl, bytes_of_named (chunkByType_eq_some_iff.mp hfind).1⟩
  case sameType =>
    intro c' hc hfind
    obtain ⟨hc', pre, post, heq, hpre⟩ := chunkByType_eq_some_iff.mp hfind
    refine ⟨TypeCode.bytes_injective ((bytes_of_named hc').trans (bytes_of_named hc).symm), pre, post, heq, ?_⟩
    intro p hp htype
    exact Bool.false_ne_true ((hpre p hp).symm.trans ((named_congr text htype).trans hc))
  case removed =>
    intro c' rest h
    obtain ⟨hfind, rfl⟩ := removeChunk_ok h
    obtain ⟨hc', pre, post, rfl, hpre⟩ := chunkByType_eq_some_iff.mp hfind
    exact ⟨hfind, pre, post, rfl, eraseP_named post hpre hc', hpre⟩

end Sys2Proof
end

section
/-! PROOFS, the family of 60_exceptions.md: a failure is latched without an event; only `END` and reset leave it;
no step stops. -/

namespace Sys2Proof.Machine

/-! ### Taking a latched failure (R231, R233, R236) -/

/-- A `BYTE` step enters `FAIL` by R152 or by R159, and by no other rule of R150's table. -/
theorem byteStep_entersFail {cfg : Config} {r : Regs} {d : Byte} (hr : r.phase ≠ .fail)
    (hf : (byteStep cfg r d).1.phase = .fail) :
    (r.phase = .sig ∧ byteStep cfg r d = (r.raise .badSignature, none)) ∨
    (r.phase = .crc ∧ r.cnt = 3 ∧ byteStep cfg r d = ((r.raise .checksumMismatch).beShift .rx d, none)) := by
  have rule := byteStep_rule cfg r d
  revert rule hf
  generalize byteStep cfg r d = out
  intro hf rule
  cases rule with
  | r152 hp => exact .inl ⟨(legal_of_effPhase hp nofun).2, rfl⟩
  | r159 hp hc => exact .inr ⟨(legal_of_effPhase hp nofun).2, hc, rfl⟩
  | r160 => exact absurd hf hr
  | _ => cases hf

/-- Settles O24: each of the two ways into `FAIL` is one `raise`; a wrong checksum also writes `rx`. -/
theorem failureIsLatchedWithoutEvent : Obligations.FailureIsLatchedWithoutEvent := by
  intro s t d ht hs hfail
  cases ht
  rw [State.stPhase, State.stErr, State.acceptByte_event]
  rw [State.acceptByte_regs] at hfail ⊢
  rcases byteStep_entersFail hs hfail with ⟨hp, hstep⟩ | ⟨hp, hc, hstep⟩ <;> rw [hstep]
  · exact ⟨rfl, rfl, rfl, rfl, rfl, rfl, .inl ⟨rfl, hp, rfl⟩⟩
  · exact ⟨rfl, rfl, rfl, rfl, rfl, rfl, .inr ⟨rfl, hp, hc, rfl⟩⟩

/-! ### Leaving FAIL (R239) -/

/-- In phase `FAIL` no wire record starts: its bytes are presented as `BYTE` commands (log 6). -/
theorem decodeWire_fail_ne_ok (cfg : Config) (cnt : Word) (bs : List Byte) (i : Instr) :
    decodeWire cfg .fail cnt bs ≠ .ok i := by
  intro h
  rcases decodeWire_ok h with ⟨hp, -⟩ | ⟨hp, -⟩ <;> cases hp

/-- Settles O25: of the things a step can do in `FAIL`, only reset and `END` write a register. -/
theorem failLeftOnlyByEndOrReset : Obligations.FailLeftOnlyByEndOrReset := by
  intro s t h hp
  cases step_rule h with
  | nothing | idle | expand => exact .inl rfl
  | byte => exact .inl (congrArg Prod.fst (byteStep_fail s.cfg _ (effPhase_of_fail hp)))
  | reset v w rest hi => exact .inr ⟨rfl, true, v, w, rest, hi, .inl rfl⟩
  | endBuf w rest hi hd => exact .inr ⟨rfl, false, true, w, rest, hi, .inr ⟨rfl, hd⟩⟩
  | record bs i rest hi hd =>
    rw [hp] at hd
    exact absurd hd (decodeWire_fail_ne_ok s.cfg s.regs.cnt bs i)

/-! ### No step stops (R83, R235) -/

section
variable {s : State} {rest : List Input}

theorem step_of_reset {v : Bool} {w : BitVec 9} (hi : s.inputs = .cycle true v w :: rest) :
    step s = .next (s.withInputs rest).resetCycle := by
  simp [step, hi]

theorem step_of_otherBytes {bs : List Byte} {err : DecodeError} (hi : s.inputs = .record bs :: rest)
    (hd : decodeWire s.cfg s.regs.phase s.regs.cnt bs = .error err) :
    step s = .next ((s.withInputs rest).expand bs) := by
  simp [step, hi, hd]

end

/-- Every instruction has a meaning in every state: no arm of the dispatch faults or is refused. -/
theorem exec_goesOn (i : Instr) (s : State) : ∃ t, exec i s = .next t := by
  cases i <;> exact ⟨_, rfl⟩

/-- Settles O30: whatever the host presents, the step is a cycle of its own or runs an instruction, and both go on. -/
theorem everyStepGoesOn : Obligations.EveryStepGoesOn := by
  intro s
  cases hi : s.inputs with
  | nil => exact ⟨_, (step_of_noInput hi).trans (stepIdle_eq s)⟩
  | cons input rest =>
    match input with
    | .cycle true _ _ => exact ⟨_, step_of_reset hi⟩
    | .cycle false false _ => exact ⟨_, (step_of_idleCycle hi).trans (stepIdle_eq _)⟩
    | .cycle false true w =>
      rw [step_of_command hi]
      exact exec_goesOn _ _
    | .record bs =>
      cases hd : decodeWire s.cfg s.regs.phase s.regs.cnt bs with
      | ok i =>
        rw [step_of_record hi hd]
        exact exec_goesOn i _
      | error _ => exact ⟨_, step_of_otherBytes hi hd⟩

end Sys2Proof.Machine
end

section
/-! PROOFS, the family of 70_reset_and_hazards.md: a reset cycle, an idle cycle, and idle cycles between the commands. -/

namespace Sys2Proof.Machine

/-! ### One cycle without a command (R260, R263) -/

/-- Settles O27: the step of a reset cycle is `State.resetCycle`, whatever is presented in it. -/
theorem resetCycleDominates : Obligations.ResetCycleDominates := fun s _ _ rest hi =>
  ⟨rfl, (s.withInputs rest).resetCycle, step_of_reset hi, rfl, rfl, State.resetCycle_trace _, rfl, rfl⟩

/-- A step in which nothing is presented is the idle cycle, whether the host's list is empty or its next cycle is idle. -/
theorem step_of_noCommand {s : State} (h : s.inputs = [] ∨ ∃ w, s.inputs.head? = some (.cycle false false w)) :
    step s = .next (s.withInputs s.inputs.tail).idle := by
  rcases h with hi | ⟨w, hw⟩
  · have hsame : s.withInputs s.inputs.tail = s := by rw [hi, List.tail_nil, ← hi, State.withInputs_same]
    rw [hsame, step_of_noInput hi, stepIdle_eq]
  · obtain ⟨rest, hi⟩ := List.head?_eq_some_iff.mp hw
    rw [step_of_idleCycle hi, stepIdle_eq, hi, List.tail_cons]

/-- Settles O28: such a step is `State.idle`, which keeps the registers and emits nothing. -/
theorem idleCycleKeepsRegisters : Obligations.IdleCycleKeepsRegisters :=
  ⟨rfl, fun _ h => ⟨_, step_of_noCommand h, rfl, rfl, rfl, rfl, rfl⟩⟩

/-! ### What a run depends on -/

/-- Two states that the commands to come cannot tell apart, and whose events so far are the same. They may differ in which
of these events the host has taken, and in what it will present. -/
structure State.Agrees (s₁ s₂ : State) : Prop where
  regs : s₁.regs = s₂.regs
  cfg : s₁.cfg = s₂.cfg
  trace : s₁.trace = s₂.trace

section
variable {s₁ s₂ : State}

theorem State.Agrees.withInputs (h : s₁.Agrees s₂) (l₁ l₂ : List Input) : (s₁.withInputs l₁).Agrees (s₂.withInputs l₂) :=
  ⟨h.regs, h.cfg, h.trace⟩

/-- An idle cycle of one of the two is not seen (R260). -/
theorem State.Agrees.idle_left (h : s₁.Agrees s₂) : s₁.idle.Agrees s₂ :=
  ⟨h.regs, h.cfg, s₁.idle_trace.trans h.trace⟩

theorem State.Agrees.acceptByte (h : s₁.Agrees s₂) (d : Byte) : (s₁.acceptByte d).Agrees (s₂.acceptByte d) := by
  have hstep : byteStep s₁.cfg s₁.regs d = byteStep s₂.cfg s₂.regs d := by rw [h.cfg, h.regs]
  exact ⟨congrArg Prod.fst hstep, h.cfg, by rw [State.acceptByte_trace, State.acceptByte_trace, h.trace, hstep]⟩

theorem State.Agrees.acceptEnd (h : s₁.Agrees s₂) : s₁.acceptEnd.Agrees s₂.acceptEnd :=
  ⟨rfl, h.cfg, by rw [State.acceptEnd_trace, State.acceptEnd_trace, h.trace, h.regs]⟩

/-- A command has the same effect on both. -/
theorem State.Agrees.step_command (h : s₁.Agrees s₂) (w : BitVec 9) (l₁ l₂ : List Input) :
    ∃ u₁ u₂ : State, step (s₁.withInputs (.cycle false true w :: l₁)) = .next (u₁.withInputs l₁) ∧
      step (s₂.withInputs (.cycle false true w :: l₂)) = .next (u₂.withInputs l₂) ∧ u₁.Agrees u₂ := by
  rw [step_of_command (State.withInputs_inputs _ _), step_of_command (State.withInputs_inputs _ _)]
  rcases decodeCmd_cases w with ⟨-, hd⟩ | ⟨-, hd⟩ <;> rw [hd]
  · exact ⟨_, _, rfl, rfl, h.acceptEnd⟩
  · exact ⟨_, _, rfl, rfl, h.acceptByte _⟩

/-- Commands and idle cycles on one side, the commands alone on the other: an idle cycle is a step of the first only, a
command is a step of both. -/
theorem State.Agrees.reaches_commands (h : s₁.Agrees s₂) {l : List Input} (hl : l.all Input.quiet = true) :
    ∃ t₁ t₂ : State, Reaches l.length (s₁.withInputs l) t₁ ∧
      Reaches (l.filter Input.isCommand).length (s₂.withInputs (l.filter Input.isCommand)) t₂ ∧ t₁.Agrees t₂ := by
  induction l generalizing s₁ s₂ with
  | nil => exact ⟨_, _, reaches_zero _, reaches_zero _, h.withInputs [] []⟩
  | cons input l ih =>
    obtain ⟨hinput, hrest⟩ : input.quiet = true ∧ l.all Input.quiet = true := Bool.and_eq_true_iff.mp hl
    match input with
    | .cycle false false w =>
      obtain ⟨t₁, t₂, ht₁, ht₂, ht⟩ := ih h.idle_left hrest
      exact ⟨t₁, t₂, reaches_succ (step_of_noCommand (.inr ⟨w, rfl⟩)) ht₁, ht₂, ht⟩
    | .cycle false true w =>
      obtain ⟨u₁, u₂, hu₁, hu₂, hu⟩ := h.step_command w l (l.filter Input.isCommand)
      obtain ⟨t₁, t₂, ht₁, ht₂, ht⟩ := ih hu hrest
      exact ⟨t₁, t₂, reaches_succ hu₁ ht₁, reaches_succ hu₂ ht₂, ht⟩
    | .cycle true _ _ | .record _ => cases hinput

end

/-- Settles O54: the two runs agree step by step, as nothing reads what they differ in. -/
theorem idleCyclesDoNotMatter : Obligations.IdleCyclesDoNotMatter := by
  intro s₁ s₂ hregs hcfg htrace hquiet hinputs
  have hagree : s₁.Agrees s₂ := ⟨hregs, hcfg, htrace⟩
  obtain ⟨t₁, t₂, ht₁, ht₂, ht⟩ := hagree.reaches_commands hquiet
  rw [← hinputs] at ht₂
  exact ⟨t₁, t₂, ht₁, ht₂, ht.regs, ht.trace⟩

end Sys2Proof.Machine
end

section
/-! PROOFS, the register patterns outside R34's set (10_state.md, log 2): they select the rules of `FAIL`. -/

namespace Sys2Proof.Machine

/-- Settles O17: a pattern outside R34's set selects the rules of `FAIL` (log 2), so `BYTE` is drained as R160 says and
`END` reports `err` as R164 says. -/
theorem unreachedPatternsActAsFail : Obligations.UnreachedPatternsActAsFail := by
  intro s d h
  have hfail : s.regs.effPhase = .fail := effPhase_of_illegal h
  exact ⟨steps_byte (byteStep_fail s.cfg d hfail), steps_endBuf (endStatus_of_fail hfail)⟩

end Sys2Proof.Machine
end
